-- ==== Sys2Proof/Word.lean ====
section
/-! DEFINITION. The word types of RMD160-CORE (spec/00_scope.md R5, R6): bytes, 32-bit words, and the
five-word tuple that the State words `H`, a line's registers and the constant sets share. -/

namespace Sys2Proof

/-- R6: a byte is 8 bits, unsigned. -/
abbrev Byte := BitVec 8

/-- R5 (`W` = 32), R6: a word is 32 bits, unsigned. Bit 0 is its least significant bit. -/
abbrev Word := BitVec 32

/-- Five 32-bit words in index order: `H[0..4]` (R11), a line `a, b, c, d, e` (R16), `IV`, `KL`, `KR`
(R91 to R93). -/
structure Five where
  w0 : Word
  w1 : Word
  w2 : Word
  w3 : Word
  w4 : Word
deriving DecidableEq, Repr

/-- Word `i` of the tuple. -/
def Five.get (v : Five) : Fin 5 → Word
  | 0 => v.w0
  | 1 => v.w1
  | 2 => v.w2
  | 3 => v.w3
  | 4 => v.w4

/-- The tuple whose word `i` is `f i`. -/
def Five.ofFn (f : Fin 5 → Word) : Five := ⟨f 0, f 1, f 2, f 3, f 4⟩

/-- R50: one block, 64 bytes in stream order. -/
abbrev Block := Fin 64 → Byte

/-- R15: the message schedule `X[0..15]`, sixteen 32-bit words. -/
abbrev Schedule := Fin 16 → Word

/-- R72: the domain of the rotate amount, `1 <= n <= 31` (notes/assumptions/13.md). -/
abbrev RotAmount := {n : Nat // 1 ≤ n ∧ n ≤ 31}

end Sys2Proof
end

