-- ==== Sys2Proof/Machine/Codec.lean ====
section
/-! DEFINITION. The Bit/Word Codec (spec/40_codec.md): little-endian packing of bytes into words and
back, the rotate-left, and the 8-byte encoding of the length. Word addition `+32` and counter addition
`+64` (R73, R77) are the addition of `BitVec 32` and `BitVec 64`, which discards the carry; AND, OR, XOR
and NOT (R75) are the bit vectors' own. -/

namespace Sys2Proof.Machine

/-- R70 `load_word_le`: byte 0 is least significant. -/
def loadWordLe (b0 b1 b2 b3 : Byte) : Word :=
  BitVec.ofNat 32 (b0.toNat + 2 ^ 8 * b1.toNat + 2 ^ 16 * b2.toNat + 2 ^ 24 * b3.toNat)

/-- R71 `store_byte`: byte `k` of a word, byte 0 least significant. -/
def storeByte (w : Word) (k : Fin 4) : Byte := BitVec.ofNat 8 (w.toNat / 2 ^ (8 * k.val))

/-- R71, R56, R60: the four bytes of a word, least significant first. -/
def wordBytes (w : Word) : List Byte := [storeByte w 0, storeByte w 1, storeByte w 2, storeByte w 3]

/-- R72 `rotate_left`: bit `i` goes to bit `(i + n) mod 32`. The amount is in 1..31
(notes/assumptions/13.md). -/
def rol (x : Word) (n : RotAmount) : Word :=
  BitVec.ofNat 32 (x.toNat * 2 ^ n.val % 2 ^ 32 + x.toNat / 2 ^ (32 - n.val))

/-- R102: the fixed rotation of the old register c, by 10 (R5 `ROT_C`). -/
def rotC : RotAmount := ⟨10, by decide⟩

/-- R74 `store_le64`: the eight bytes of a 64-bit number, least significant first. -/
def storeLe64 (v : BitVec 64) : List Byte :=
  (List.range 8).map fun k => BitVec.ofNat 8 (v.toNat / 2 ^ (8 * k))

end Sys2Proof.Machine
end

