-- ==== Sys2Proof/Syntax.lean ====
section
/-! DEFINITION. The commands of RMD160-CMD version 1 as values (spec/30_encoding.md R57, R58): one
constructor per row of spec/opcode_table.json, and the pseudo-instructions of R63 as abbreviations. -/

namespace Sys2Proof

/-- R57, R58: the five host commands with their operands. No command names a register or an address. -/
inductive Instr where
  /-- `RESET` (R146): no operand. -/
  | reset
  /-- `UPDATE data` (R148): a byte sequence, possibly empty. -/
  | update (data : List Byte)
  /-- `FINALIZE` (R149): no operand. -/
  | finalize
  /-- `TOHEX DG` (R150): the digest bytes; well formed with exactly 20 of them. -/
  | tohex (dg : List Byte)
  /-- `HASH data` (R151): a byte sequence, possibly empty. -/
  | hash (data : List Byte)
deriving DecidableEq, Repr

/-- R55: the payload bytes that follow the command word, in message order. -/
def Instr.payload : Instr → List Byte
  | .reset => []
  | .update data => data
  | .finalize => []
  | .tohex dg => dg
  | .hash data => data

/-- R63: the pseudo-instruction `NEW` is `RESET`. -/
abbrev Instr.new : Instr := .reset

/-- R63: the pseudo-instruction `UPDATEB XX` is `UPDATE` of one byte. -/
abbrev Instr.updateb (v : Byte) : Instr := .update [v]

/-- R63: the pseudo-instruction `NOP` is `UPDATE` of the empty sequence. -/
abbrev Instr.nop : Instr := .update []

end Sys2Proof
end

