-- ==== Sys2Proof/Config.lean ====
section
/-! DEFINITION. What is fixed for the machine (spec/00_scope.md R5). The parameters that a test could
show wrong (`LEN_SCALE`, `PAD_MARK`, the tables) stand in Sys2Proof/Machine/, where they are used.
No free value is needed: below the documented limit no rule leaves a result open. -/

namespace Sys2Proof.Config

/-- R5 `BLOCK_BYTES`: bytes per block. -/
abbrev blockBytes : Nat := 64

/-- R5 `NSTEPS`: steps per line per block. -/
abbrev nSteps : Nat := 80

/-- R5 `DIGEST_BYTES`: bytes of digest. -/
abbrev digestBytes : Nat := 20

/-- R5 `HEX_CHARS`: characters of the hex string. -/
abbrev hexChars : Nat := 40

/-- R5 `NMAX`, D4: the largest payload byte count of one command. -/
abbrev nMax : Nat := 2 ^ 24 - 1

/-- R5 `LEN_LIMIT`, R190: results are specified only while fewer bytes than this have been fed
between a reset and the finalize (notes/assumptions/7.md). -/
abbrev lenLimit : Nat := 2 ^ 61

end Sys2Proof.Config
end

