-- ==== Sys2Proof/WellFormed.lean ====
section
/-! DEFINITION. Which commands can be encoded (spec/30_encoding.md R57, R58): the payload fits the
24-bit count, and the digest operand of `TOHEX` has 20 bytes. -/

namespace Sys2Proof

/-- R57: the constraint on `N`, the number of payload bytes, for each command. -/
def Instr.wf : Instr → Bool
  | .reset => true
  | .update data => decide (data.length ≤ Config.nMax)
  | .finalize => true
  | .tohex dg => decide (dg.length = Config.digestBytes)
  | .hash data => decide (data.length ≤ Config.nMax)

end Sys2Proof
end

