-- ==== Sys2Proof/Decode.lean ====
section
/-! DEFINITION. Command and response encoding, the command side (spec/30_encoding.md Part B): the opcode
map of R57 as match and mask rows, the framing of R55, the decoder, total on any bytes and rejecting by
name, and after it the encoder. -/

namespace Sys2Proof

open Sys2Proof.Machine

/-- The five operations of the opcode map (R57). -/
inductive Op where
  | reset
  | update
  | finalize
  | tohex
  | hash
deriving DecidableEq, Repr

/-- One row of the opcode map: a command word `w` is this row's when `w AND mask = pattern`. -/
structure OpcodeRow where
  op : Op
  pattern : Word
  mask : Word
deriving DecidableEq, Repr

/-- R57: the opcode map as match and mask over the 32-bit command word. -/
def opcodeRows : List OpcodeRow :=
  [⟨.reset, 0x00000001, 0xFFFFFFFF⟩, ⟨.update, 0x00000002, 0x000000FF⟩,
   ⟨.finalize, 0x00000003, 0xFFFFFFFF⟩, ⟨.tohex, 0x00001404, 0xFFFFFFFF⟩,
   ⟨.hash, 0x00000005, 0x000000FF⟩]

/-- The row test of the opcode map. -/
def OpcodeRow.covers (r : OpcodeRow) (w : Word) : Bool := w &&& r.mask == r.pattern

/-- R57, R59: the operation of a command word, none when the word is illegal. -/
def decodeWord (w : Word) : Option Op := (opcodeRows.find? (·.covers w)).map (·.op)

/-- R56: field `OPC`, bits 7:0 of the command word. -/
def wordOpc (w : Word) : Byte := BitVec.ofNat 8 w.toNat

/-- R56: field `N`, bits 31:8 of the command word, the number of payload bytes. -/
def wordCount (w : Word) : Nat := w.toNat / 2 ^ 8

/-- R59: why a command word is illegal. -/
inductive Illegal where
  /-- R59 (a): `OPC` is 0x00 or in 0x06..0xFF. -/
  | reservedOpcode (opc : Byte)
  /-- R59 (b): a defined opcode whose `N` breaks its constraint. -/
  | forbiddenCount (opc : Byte) (n : Nat)
deriving DecidableEq, Repr

/-- R59: the reason, by the case of the rule. -/
def illegalReason (w : Word) : Illegal :=
  if 1 ≤ (wordOpc w).toNat ∧ (wordOpc w).toNat ≤ 5 then .forbiddenCount (wordOpc w) (wordCount w)
  else .reservedOpcode (wordOpc w)

/-- What the decoder makes of the bytes on the command stream. -/
inductive Decoded where
  /-- A whole, legal command, and the bytes that follow it. -/
  | command (i : Instr) (rest : List Byte)
  /-- A whole command whose word is illegal (R59), and the bytes that follow its payload. -/
  | illegal (why : Illegal) (rest : List Byte)
  /-- R55: not all `4 + N` bytes have arrived. -/
  | incomplete
deriving DecidableEq, Repr

/-- R58: the command of an operation and its payload. -/
def Op.withPayload : Op → List Byte → Instr
  | .reset, _ => .reset
  | .update, p => .update p
  | .finalize, _ => .finalize
  | .tohex, p => .tohex p
  | .hash, p => .hash p

/-- R55, R56, R59, R61: reads one command off the stream. The length comes from `N` alone, whatever the
opcode, so the stream stays framed across an illegal command, and nothing is decided before the whole
command has arrived (notes/assumptions/11.md). -/
def decode : List Byte → Decoded
  | b0 :: b1 :: b2 :: b3 :: t =>
    let w := loadWordLe b0 b1 b2 b3
    let n := wordCount w
    if t.length < n then .incomplete
    else
      match decodeWord w with
      | some op => .command (op.withPayload (t.take n)) (t.drop n)
      | none => .illegal (illegalReason w) (t.drop n)
  | _ => .incomplete

/-- R57: the opcode values. -/
def Instr.opcode : Instr → Nat
  | .reset => 0x01
  | .update _ => 0x02
  | .finalize => 0x03
  | .tohex _ => 0x04
  | .hash _ => 0x05

/-- R56: the command word, `OPC` in bits 7:0 and `N` in bits 31:8. -/
def commandWord (i : Instr) : Word := BitVec.ofNat 32 (i.opcode + 2 ^ 8 * i.payload.length)

/-- R55, R56: the stream bytes of a command, its word least significant byte first and its payload. -/
def encode (i : Instr) : List Byte := wordBytes (commandWord i) ++ i.payload

/-- The stream bytes of the instruction whose table bits are `w`: the `nbits / 8` bytes the table numbers,
first byte lowest, then zero bytes up to the length `4 + N` that R55 gives the command. -/
def tableStream (nbits w : Nat) : List Byte :=
  let head := (List.range (nbits / 8)).map fun k => BitVec.ofNat 8 (w / 2 ^ (8 * k))
  head ++ List.replicate (4 + w % 2 ^ nbits % 2 ^ 32 / 2 ^ 8 - nbits / 8) 0

/-- The instruction the decoder reads from the bits of a row of spec/opcode_table.json. -/
def decodeTableWord (nbits w : Nat) : Option Instr :=
  match decode (tableStream nbits w) with
  | .command i _ => some i
  | .illegal _ _ => none
  | .incomplete => none

end Sys2Proof
end

