-- ==== Sys2Proof/Machine/Tables.lean ====
section
/-! DEFINITION. Round functions and schedule tables (spec/41_round_functions_tables.md). The source
withholds every value but two zeros; the values are the ones the spec gives from general knowledge
(G1 to G8, notes/assumptions/9.md). Each is a definition of its own, so that a theorem shows which it
rests on (U5). -/

namespace Sys2Proof.Machine

/-- R80: the quintile of step `j`, `j div 16`. -/
def quintile (j : Fin 80) : Fin 5 := ⟨j.val / 16, by omega⟩

/-- R86: the right line's function index, `4 - q`. -/
def mirror (q : Fin 5) : Fin 5 := ⟨4 - q.val, by omega⟩

/-- R81: the XOR-only function. -/
def f0 (x y z : Word) : Word := x ^^^ y ^^^ z

/-- R82: `y` where `x` is 1, `z` where `x` is 0. -/
def f1 (x y z : Word) : Word := (x &&& y) ||| (~~~x &&& z)

/-- R83. -/
def f2 (x y z : Word) : Word := (x ||| ~~~y) ^^^ z

/-- R84: `x` where `z` is 1, `y` where `z` is 0. -/
def f3 (x y z : Word) : Word := (x &&& z) ||| (y &&& ~~~z)

/-- R85. -/
def f4 (x y z : Word) : Word := x ^^^ (y ||| ~~~z)

/-- R86: the function `f_q`, numbered in the left line's order of use. -/
def roundFn : Fin 5 → Word → Word → Word → Word
  | 0 => f0
  | 1 => f1
  | 2 => f2
  | 3 => f3
  | 4 => f4

/-- R87 `RL`: the left line's message-index table, one row per quintile. -/
def rlTable : List Nat :=
  [0, 1, 2, 3, 4, 5, 6, 7, 8, 9, 10, 11, 12, 13, 14, 15] ++
  [7, 4, 13, 1, 10, 6, 15, 3, 12, 0, 9, 5, 2, 14, 11, 8] ++
  [3, 10, 14, 4, 9, 15, 8, 1, 2, 7, 0, 6, 13, 11, 5, 12] ++
  [1, 9, 11, 10, 0, 8, 12, 4, 13, 3, 7, 15, 14, 5, 6, 2] ++
  [4, 0, 5, 9, 7, 12, 2, 10, 14, 1, 3, 8, 11, 6, 15, 13]

/-- R94 (a): every entry of `RL` is in 0..15. -/
theorem rlTable_lt (j : Fin 80) : rlTable.getD j.val 0 < 16 := by
  revert j; decide

/-- R87: at step `j` the left line consumes `X[RL[j]]`. -/
def rl (j : Fin 80) : Fin 16 := ⟨rlTable.getD j.val 0, rlTable_lt j⟩

/-- R88 `RR`: the right line's message-index table, one row per quintile. -/
def rrTable : List Nat :=
  [5, 14, 7, 0, 9, 2, 11, 4, 13, 6, 15, 8, 1, 10, 3, 12] ++
  [6, 11, 3, 7, 0, 13, 5, 10, 14, 15, 8, 12, 4, 9, 1, 2] ++
  [15, 5, 1, 3, 7, 14, 6, 9, 11, 8, 12, 2, 10, 0, 4, 13] ++
  [8, 6, 4, 1, 3, 11, 15, 0, 5, 12, 2, 13, 9, 7, 10, 14] ++
  [12, 15, 10, 4, 1, 5, 8, 7, 6, 2, 13, 14, 0, 3, 9, 11]

/-- R94 (a): every entry of `RR` is in 0..15. -/
theorem rrTable_lt (j : Fin 80) : rrTable.getD j.val 0 < 16 := by
  revert j; decide

/-- R88: at step `j` the right line consumes `X[RR[j]]`. -/
def rr (j : Fin 80) : Fin 16 := ⟨rrTable.getD j.val 0, rrTable_lt j⟩

/-- R89 `SL`: the left line's rotation-amount table, one row per quintile. -/
def slTable : List Nat :=
  [11, 14, 15, 12, 5, 8, 7, 9, 11, 13, 14, 15, 6, 7, 9, 8] ++
  [7, 6, 8, 13, 11, 9, 7, 15, 7, 12, 15, 9, 11, 7, 13, 12] ++
  [11, 13, 6, 7, 14, 9, 13, 15, 14, 8, 13, 6, 5, 12, 7, 5] ++
  [11, 12, 14, 15, 14, 15, 9, 8, 9, 14, 5, 6, 8, 6, 5, 12] ++
  [9, 15, 5, 11, 6, 8, 13, 12, 5, 12, 13, 14, 11, 8, 5, 6]

/-- R94 (c): every entry of `SL` is in the domain 1..31 of the rotate. -/
theorem slTable_domain (j : Fin 80) :
    1 ≤ slTable.getD j.val 0 ∧ slTable.getD j.val 0 ≤ 31 := by
  revert j; decide

/-- R89: at step `j` the left line rotates by `SL[j]`. -/
def sl (j : Fin 80) : RotAmount := ⟨slTable.getD j.val 0, slTable_domain j⟩

/-- R90 `SR`: the right line's rotation-amount table, one row per quintile. -/
def srTable : List Nat :=
  [8, 9, 9, 11, 13, 15, 15, 5, 7, 7, 8, 11, 14, 14, 12, 6] ++
  [9, 13, 15, 7, 12, 8, 9, 11, 7, 7, 12, 7, 6, 15, 13, 11] ++
  [9, 7, 15, 11, 8, 6, 6, 14, 12, 13, 5, 14, 13, 13, 7, 5] ++
  [15, 5, 8, 11, 14, 14, 6, 14, 6, 9, 12, 9, 12, 5, 15, 8] ++
  [8, 5, 12, 9, 12, 5, 14, 6, 8, 13, 6, 5, 15, 13, 11, 11]

/-- R94 (c): every entry of `SR` is in the domain 1..31 of the rotate. -/
theorem srTable_domain (j : Fin 80) :
    1 ≤ srTable.getD j.val 0 ∧ srTable.getD j.val 0 ≤ 31 := by
  revert j; decide

/-- R90: at step `j` the right line rotates by `SR[j]`. -/
def sr (j : Fin 80) : RotAmount := ⟨srTable.getD j.val 0, srTable_domain j⟩

/-- R91 `KL`: the left line's round constants, one per quintile. -/
def kl : Five := ⟨0x00000000, 0x5A827999, 0x6ED9EBA1, 0x8F1BBCDC, 0xA953FD4E⟩

/-- R92 `KR`: the right line's round constants, one per quintile (not mirrored). -/
def kr : Five := ⟨0x50A28BE6, 0x5C4DD124, 0x6D703EF3, 0x7A6D76E9, 0x00000000⟩

/-- R93 `IV`: the initial State words. -/
def iv : Five := ⟨0x67452301, 0xEFCDAB89, 0x98BADCFE, 0x10325476, 0xC3D2E1F0⟩

end Sys2Proof.Machine
end

