-- ==== Sys2Proof/Machine/Operands.lean ====
section
/-! DEFINITION. Operand forms. The commands' operands (spec/30_encoding.md R58): a byte sequence as it
stands, and the 20-byte digest. The operands that step `j` of a line selects (spec/30_encoding.md R64). -/

namespace Sys2Proof.Machine

/-- R58, R161: the operand of `TOHEX`, none unless it has exactly 20 bytes. -/
def digestOperand (payload : List Byte) : Option (List Byte) :=
  if payload.length = Config.digestBytes then some payload else none

/-- R64: what one line's step selects. -/
structure StepOperands where
  /-- The round function of the quintile. -/
  f : Word → Word → Word → Word
  /-- The message word. -/
  x : Word
  /-- The round constant of the quintile. -/
  k : Word
  /-- The rotation amount. -/
  s : RotAmount

/-- R64, left line: `f_q`, `X[RL[j]]`, `KL[q]`, `SL[j]`. -/
def leftOperands (X : Schedule) (j : Fin 80) : StepOperands :=
  ⟨roundFn (quintile j), X (rl j), kl.get (quintile j), sl j⟩

/-- R64, right line: `f_(4-q)`, `X[RR[j]]`, `KR[q]`, `SR[j]`. The function is mirrored, the constant is not. -/
def rightOperands (X : Schedule) (j : Fin 80) : StepOperands :=
  ⟨roundFn (mirror (quintile j)), X (rr j), kr.get (quintile j), sr j⟩

end Sys2Proof.Machine
end

