-- ==== Sys2Proof/Machine/Compression.lean ====
section
/-! DEFINITION. The Compression Core (spec/42_compression.md): DECODE_BLOCK, LINE_INIT, STEP_L and STEP_R
over the transient registers `X`, `L`, `R`, and COMBINE. The transients are local to one invocation (R108). -/

namespace Sys2Proof.Machine

/-- R15, R16: the transient registers of one invocation. The step index `j` (R17) is the loop's variable. -/
structure Datapath where
  X : Schedule
  l : Five
  r : Five

/-- R100 DECODE_BLOCK: `X[i]` from block bytes `4i .. 4i+3`, little-endian. -/
def decodeBlock (B : Block) : Schedule := fun i =>
  loadWordLe (B ⟨4 * i.val, by omega⟩) (B ⟨4 * i.val + 1, by omega⟩) (B ⟨4 * i.val + 2, by omega⟩)
    (B ⟨4 * i.val + 3, by omega⟩)

/-- R101 LINE_INIT: both lines start from the State words. -/
def lineInit (h : Five) (X : Schedule) : Datapath := ⟨X, h, h⟩

/-- R102, R103: one step of a line with the operands selected for it. All right-hand sides are old values;
`e` is added after the rotation. -/
def stepLine (o : StepOperands) (v : Five) : Five :=
  let t := rol (v.w0 + o.f v.w1 v.w2 v.w3 + o.x + o.k) o.s + v.w4
  ⟨v.w4, t, v.w1, rol v.w2 rotC, v.w3⟩

/-- R102 STEP_L. -/
def stepL (j : Fin 80) (d : Datapath) : Datapath := { d with l := stepLine (leftOperands d.X j) d.l }

/-- R103 STEP_R. -/
def stepR (j : Fin 80) (d : Datapath) : Datapath := { d with r := stepLine (rightOperands d.X j) d.r }

/-- R104: `j` = 0, 1, ..., 79, both lines at each `j` (left first, notes/assumptions/12.md). -/
def stepLoop (d : Datapath) : Datapath :=
  (List.finRange 80).foldl (fun d j => stepR j (stepL j d)) d

/-- R105 COMBINE: `H[i] <- Hold[(i+1) mod 5] + L[(i+2) mod 5] + R[(i+3) mod 5]`, all from the old `H`. -/
def combine (h : Five) (d : Datapath) : Five :=
  Five.ofFn fun i => h.get (i + 1) + d.l.get (i + 2) + d.r.get (i + 3)

/-- R106 COMPRESS, as the pure function `compress(h, B)`. -/
def compress (h : Five) (B : Block) : Five := combine h (stepLoop (lineInit h (decodeBlock B)))

end Sys2Proof.Machine
end

