-- ==== Sys2Proof/Machine/State.lean ====
section
/-! DEFINITION. The state of one engine instance (spec/10_state.md R10) and its two byte streams
(spec/20_memory.md R30), the exceptions the spec describes, and the stops of the model. -/

namespace Sys2Proof.Machine

/-- R14: the lifecycle flag. -/
inductive Phase where
  | active
  | finalized
deriving DecidableEq, Repr

/-- R160: the two exceptions (the spec's "faults"). Taking one is a NEXT state, `raise` in Machine/Ops.lean:
R164 says what the machine does then, and the machine goes on (notes/assumptions/1.md). -/
inductive Exception where
  /-- R161: the command word is illegal. -/
  | illegalCommand
  /-- R162: `UPDATE` or `FINALIZE` arrived while `PHASE = FINALIZED`. -/
  | lifecycle
deriving DecidableEq, Repr

/-- R60: the status field of a response. -/
inductive Status where
  | ok
  | illegalCommand
  | lifecycle
deriving DecidableEq, Repr

/-- Where a step of the model stops. -/
inductive Fault where
  /-- Raised by `absorb` (so by `UPDATE`, `FINALIZE` and `HASH`) when the block to compress has an
  address that lists no byte. The spec says this never happens ("the engine never reads an address it
  has not written", R40), and from a state that meets `Inv` it does not. Safe: the model stops where the
  content is unspecified (notes/assumptions/5.md). -/
  | blockUnwritten
deriving DecidableEq, Repr

/-- Why a step is refused. -/
inductive Refusal where
  /-- An instruction without a meaning, raised in exec's arm only; safe. Every instruction of the opcode
  table has its meaning, so no arm raises it. -/
  | notModelled (mnemonic : String)
deriving DecidableEq, Repr

/-- R10, R30: the state between two commands. The schedule `X`, the lines `L` and `R` and the step index
`j` live inside one COMPRESS only (R10, R25, R108; notes/assumptions/6.md): Machine/Compression.lean. -/
structure State where
  /-- R11: the State words `H[0..4]`. -/
  h : Five
  /-- R12, R30: the buffer space, the valid bytes only, addresses rising (notes/assumptions/5.md). -/
  mem : List Host.Cell
  /-- R12, R21: `BUFLEN`, the number of valid bytes (notes/assumptions/16.md). -/
  bufLen : BitVec 6
  /-- R13: the Length Counter `LEN`. -/
  len : BitVec 64
  /-- R14: `PHASE`. -/
  phase : Phase
  /-- R30, R55: the command stream, the bytes that have arrived and are not consumed (notes/assumptions/2.md). -/
  cmdIn : List Byte
  /-- R30, R60: the response stream, every byte emitted since power-on (notes/assumptions/2.md). -/
  respOut : List Byte
deriving DecidableEq, Repr

/-- R24, R180: the state after power-on. The streams hold nothing (DESIGN CHOICE, notes/assumptions/2.md). -/
def State.reset : State where
  h := iv
  mem := []
  bufLen := 0
  len := 0
  phase := .active
  cmdIn := []
  respOut := []

end Sys2Proof.Machine
end

