-- ==== Sys2Proof/Machine/Flags.lean ====
section
/-! DEFINITION. The one flag, `PHASE` (spec/10_state.md R14, R20), and the status codes of a response
(spec/30_encoding.md R60). No operation computes a carry, overflow, zero or sign indication (R20). -/

namespace Sys2Proof.Machine

/-- R14, R21: the value of the flag's bit. -/
def Phase.bit : Phase → BitVec 1
  | .active => 0
  | .finalized => 1

/-- R60, R160: the status codes. -/
def Status.code : Status → Byte
  | .ok => 0x00
  | .illegalCommand => 0x01
  | .lifecycle => 0x02

/-- R160: the status that reports an exception. -/
def Exception.status : Exception → Status
  | .illegalCommand => .illegalCommand
  | .lifecycle => .lifecycle

/-- R145, R162: a command that needs an open computation meets the lifecycle check. -/
def lifecycleOk (s : State) : Bool := s.phase == .active

/-- R149, R151: `PHASE <- FINALIZED`. -/
def setFinalized (s : State) : State := { s with phase := .finalized }

end Sys2Proof.Machine
end

