-- ==== Sys2Proof/Machine/Ops.lean ====
section
/-! DEFINITION. The named operations over the buffer space, the registers and the streams: reading and
writing a byte (spec/20_memory.md R40), the response (spec/30_encoding.md R60), taking an exception
(spec/60_exceptions.md R164), and the return to the initial lifecycle state (spec/70_reset_and_hazards.md R181). -/

namespace Sys2Proof.Machine

/-- R30: the buffer space as the list of its valid bytes. -/
abbrev Memory := List Host.Cell

/-- The canonical form: addresses strictly rising, all in the space of 64 bytes (R30). An unlisted address
has no value, so no listed byte can equal it. -/
abbrev Memory.wf (m : Memory) : Prop := m.Pairwise (fun c d => c.1 < d.1) ∧ ∀ c ∈ m, c.1 < 64

/-- R40 `MemRead(addr, 1)`. What an unlisted address reads as: no value (DESIGN CHOICE, safe;
notes/assumptions/5.md). -/
def Memory.read : Memory → Nat → Option Byte
  | [], _ => none
  | c :: m, a => if c.1 = a then some c.2 else Memory.read m a

/-- R40 `MemWrite(addr, 1, v)`: one byte stored, the canonical form kept. -/
def Memory.write : Memory → Nat → Byte → Memory
  | [], a, v => [(a, v)]
  | c :: m, a, v =>
    if a < c.1 then (a, v) :: c :: m
    else if a = c.1 then (a, v) :: m
    else c :: Memory.write m a v

/-- R40 `MemRead(4 * i, 4)`: the little-endian word at a word address, none unless its bytes are written. -/
def Memory.readWord (m : Memory) (i : Fin 16) : Option Word := do
  let b0 ← m.read (4 * i.val)
  let b1 ← m.read (4 * i.val + 1)
  let b2 ← m.read (4 * i.val + 2)
  let b3 ← m.read (4 * i.val + 3)
  return loadWordLe b0 b1 b2 b3

/-- R120, R122: the 64 bytes handed to the Compression Core; the model's one stop when a byte of them is
not written (notes/assumptions/5.md). -/
def Memory.readBlock (m : Memory) : Except Fault Block :=
  if written : ∀ a : Fin 64, (m.read a.val).isSome then .ok fun a => (m.read a.val).get (written a)
  else .error .blockUnwritten

/-- R60: the response word, `STATUS` in bits 7:0 and `M` in bits 31:8. -/
def responseWord (st : Status) (m : Nat) : Word := BitVec.ofNat 32 (st.code.toNat + 2 ^ 8 * m)

/-- R60: the bytes of a response, its word least significant byte first and its payload. -/
def responseBytes (st : Status) (payload : List Byte) : List Byte :=
  wordBytes (responseWord st payload.length) ++ payload

/-- R9 `respond(status, bytes)`: the command ends, its response follows on the response stream. -/
def respond (st : Status) (payload : List Byte) (s : State) : State :=
  { s with respOut := s.respOut ++ responseBytes st payload }

/-- R164, taking an exception: the command ends, no state of R10 changes, the response carries the code
with `M = 0`, and the engine is ready for the next command. There is no return from it (R165). -/
def raise (e : Exception) (s : State) : Host.Outcome State Fault Refusal :=
  .next (respond e.status [] s)

/-- R181: the initial lifecycle state, as `RESET` and the first stage of `HASH` restore it. The streams are
not state of the instance and stay (notes/assumptions/2.md). -/
def initialise (s : State) : State :=
  { s with h := iv, mem := [], bufLen := 0, len := 0, phase := .active }

/-- R55: the bytes of the command taken off the command stream. -/
def consume (rest : List Byte) (s : State) : State := { s with cmdIn := rest }

/-- The outcome of a command whose work may meet the model's one stop. -/
def outcome : Except Fault State → Host.Outcome State Fault Refusal
  | .ok s => .next s
  | .error f => .fault f

end Sys2Proof.Machine
end

