-- ==== Sys2Proof/Machine/Streaming.lean ====
section
/-! DEFINITION. The Streaming Buffer and Length Counter (spec/43_streaming.md): `update` in the byte-serial
form of R122, the 64-byte hardware realisation the spec assumes (R12, D21). The source's own formulation
(R120) stands in Sys2Proof/Reference.lean. -/

namespace Sys2Proof.Machine

/-- R122 `absorb(v)`: the byte goes to address `BUFLEN`, both counters advance (`LEN` modulo 2^64,
notes/assumptions/7.md), and a buffer whose 64th byte has arrived is compressed and emptied at once. -/
def absorb (s : State) (v : Byte) : Except Fault State :=
  let m := Memory.write s.mem s.bufLen.toNat v
  if s.bufLen = 63 then
    (Memory.readBlock m).map fun B =>
      { s with h := compress s.h B, mem := [], bufLen := 0, len := s.len + 1 }
  else .ok { s with mem := m, bufLen := s.bufLen + 1, len := s.len + 1 }

/-- R120, R122 `update(data)`: the bytes absorbed one at a time, in order. -/
def update (data : List Byte) (s : State) : Except Fault State := data.foldlM absorb s

end Sys2Proof.Machine
end

