-- ==== Sys2Proof/Machine/Finalizer.lean ====
section
/-! DEFINITION. Padding and Finalizer (spec/44_finalizer.md): the marker, the zero fill, the length field
and the digest serialization. -/

namespace Sys2Proof.Machine

/-- R136 `LEN_SCALE`: the length field holds `LEN_SCALE` times the byte count; 1 for this hardware (C1, D14;
notes/assumptions/8.md). -/
def lenScale : Nat := 1

/-- R5 `PAD_MARK`: the first padding byte. -/
def padMark : Byte := 0x80

/-- R5 `PAD_RESIDUE`: the buffer length at which the zero fill stops. -/
def padResidue : BitVec 6 := 56

/-- R130 step 3: zero bytes until `BUFLEN = 56`. `fuel` bounds the loop; 64 always suffice
(R131, notes/assumptions/15.md). -/
def zeroFill : Nat → State → Except Fault State
  | 0, s => .ok s
  | fuel + 1, s => if s.bufLen = padResidue then .ok s else absorb s 0 >>= zeroFill fuel

/-- R51: the length field for the snapshot `n`, `(LEN_SCALE * n) mod 2^64` in eight bytes. -/
def lengthField (scale : Nat) (n : BitVec 64) : List Byte :=
  storeLe64 (BitVec.ofNat 64 (scale * n.toNat))

/-- R130 steps 1 to 4, for any `LEN_SCALE`: the snapshot of `LEN` is taken before any padding (R137). -/
def padWith (scale : Nat) (s : State) : Except Fault State := do
  let marked ← update [padMark] s
  let filled ← zeroFill 64 marked
  update (lengthField scale s.len) filled

/-- R130 steps 1 to 4 of this hardware. -/
def pad (s : State) : Except Fault State := padWith lenScale s

/-- R133: digest byte `i` is byte `i mod 4` of State word `i div 4`. -/
def serialize (h : Five) : List Byte :=
  (List.finRange 20).map fun i =>
    storeByte (h.get ⟨i.val / 4, by omega⟩) ⟨i.val % 4, by omega⟩

end Sys2Proof.Machine
end

