-- ==== Sys2Proof/Machine/HexEncoder.lean ====
section
/-! DEFINITION. The Hex Encoder (spec/45_hex_encoder.md): lowercase hex digits, most significant nibble
first, one ASCII byte per character (D23, notes/assumptions/10.md). -/

namespace Sys2Proof.Machine

/-- R141 `hexdigit(v)` as the byte on the response stream: `0x30 + v` up to 9, `0x57 + v` from 10. -/
def hexDigit (v : Fin 16) : Byte :=
  if v.val ≤ 9 then BitVec.ofNat 8 (0x30 + v.val) else BitVec.ofNat 8 (0x57 + v.val)

/-- R140: the two characters of a byte, bits 7:4 first. -/
def hexByte (b : Byte) : List Byte :=
  [hexDigit ⟨b.toNat / 16, by omega⟩, hexDigit ⟨b.toNat % 16, by omega⟩]

/-- R140 `to_hex`: the characters in digest-index order. -/
def toHex (dg : List Byte) : List Byte := dg.flatMap hexByte

end Sys2Proof.Machine
end

