-- ==== Sys2Proof/Machine/Commands.lean ====
section
/-! DEFINITION. The meanings of the five host commands (spec/46_commands.md). The format check has been made
by the decoder (R145, R163); a meaning makes the lifecycle check, does its work and responds. -/

namespace Sys2Proof.Machine

/-- R146 `RESET`: the initial lifecycle state in both phases. -/
def execReset (s : State) : Host.Outcome State Fault Refusal :=
  .next (respond .ok [] (initialise s))

/-- R148 `UPDATE data`: `Lifecycle` after a finalize, even for an empty payload (R162). -/
def execUpdate (data : List Byte) (s : State) : Host.Outcome State Fault Refusal :=
  if lifecycleOk s then outcome ((update data s).map (respond .ok []))
  else raise .lifecycle s

/-- R130, R149: padding, `PHASE <- FINALIZED`. -/
def finish (s : State) : Except Fault State := (pad s).map setFinalized

/-- R149 `FINALIZE`: responds with the 20 digest bytes. -/
def execFinalize (s : State) : Host.Outcome State Fault Refusal :=
  if lifecycleOk s then outcome ((finish s).map fun t => respond .ok (serialize t.h) t)
  else raise .lifecycle s

/-- R150 `TOHEX DG`: reads and writes no state, in both phases. A payload that is not 20 bytes is
`IllegalCommand` (R161); the decoder never hands one on (notes/assumptions/17.md). -/
def execTohex (dg : List Byte) (s : State) : Host.Outcome State Fault Refusal :=
  match digestOperand dg with
  | some digest => .next (respond .ok (toHex digest) s)
  | none => raise .illegalCommand s

/-- R151 `HASH data`: `new`, `update`, `finalize` and `to_hex` in one, on the instance's own state, in both
phases; only the hex string is returned. -/
def execHash (data : List Byte) (s : State) : Host.Outcome State Fault Refusal :=
  outcome <| (update data (initialise s) >>= finish).map fun t =>
    respond .ok (toHex (serialize t.h)) t

end Sys2Proof.Machine
end

