-- ==== Sys2Proof/Machine/Dispatch.lean ====
section
/-! DEFINITION. One arm per command (spec/46_commands.md R145). -/

namespace Sys2Proof.Machine

/-- The meaning of one command in a state. -/
def exec (i : Instr) (s : State) : Host.Outcome State Fault Refusal :=
  match i with
  | .reset => Sys2Proof.Machine.execReset s
  | .update data => Sys2Proof.Machine.execUpdate data s
  | .finalize => Sys2Proof.Machine.execFinalize s
  | .tohex dg => Sys2Proof.Machine.execTohex dg s
  | .hash data => Sys2Proof.Machine.execHash data s

end Sys2Proof.Machine
end

