-- ==== Sys2Proof/Machine/Step.lean ====
section
/-! DEFINITION. One step: one command taken off the command stream and run to its response
(spec/30_encoding.md R55, spec/46_commands.md R145, spec/20_memory.md R33). -/

namespace Sys2Proof.Machine

/-- R145: a whole legal command is consumed and run; a whole illegal one is consumed with its payload and
raises `IllegalCommand` (R161); with no whole command on the stream the engine waits and keeps its state
(R55, R173; notes/assumptions/3.md). -/
def step (s : State) : Host.Outcome State Fault Refusal :=
  match decode s.cmdIn with
  | .command i rest => exec i (consume rest s)
  | .illegal _ rest => raise .illegalCommand (consume rest s)
  | .incomplete => .next s

/-- The command of an opcode-table row put at the head of the command stream, where `step` takes its next
command (notes/assumptions/4.md). -/
def State.withFetchWord (s : State) (nbits w : Nat) : State :=
  { s with cmdIn := tableStream nbits w ++ s.cmdIn }

end Sys2Proof.Machine
end

