-- ==== Sys2Proof/Machine/Assembler.lean ====
section
/-! DEFINITION. The assembler syntax of spec/30_encoding.md R62 and the pseudo-instructions of R63: a line of
text to a command, and a list of lines to the bytes of the command stream. What these rules leave open of
the text form (the case of hex digits, a `;` inside quotes, the operand of `UPDATEB`) is notes/assumptions/18.md. -/

namespace Sys2Proof.Machine

/-- R62: a line's items: a bare word, or the characters of a double-quoted string. -/
inductive Token where
  | bare (cs : List Char)
  | quoted (cs : List Char)
deriving DecidableEq, Repr

/-- Where the reader stands in a line; the characters read so far are in reverse. -/
inductive Scan where
  | gap
  | word (acc : List Char)
  | text (acc : List Char)
  | closed
deriving DecidableEq, Repr

/-- The token a word ends with, if one was open. -/
def Scan.flush : Scan → List Token
  | .gap => []
  | .word acc => [.bare acc.reverse]
  | .text _ => []
  | .closed => []

/-- R62: the tokens of a line, separated by spaces; `;` (code 0x3B) outside quotes starts a comment. None
when a quoted string is not closed or two items touch. -/
def tokens : List Char → Scan → Option (List Token)
  | [], .text _ => none
  | [], sc => some sc.flush
  | c :: cs, .text acc =>
    if c.toNat = 0x22 then (.quoted acc.reverse :: ·) <$> tokens cs .closed else tokens cs (.text (c :: acc))
  | c :: cs, sc =>
    if c.toNat = 0x3B then some sc.flush
    else if c.toNat = 0x20 then (sc.flush ++ ·) <$> tokens cs .gap
    else
      match sc with
      | .gap => if c.toNat = 0x22 then tokens cs (.text []) else tokens cs (.word [c])
      | .word acc => if c.toNat = 0x22 then none else tokens cs (.word (c :: acc))
      | .text _ => none
      | .closed => none

/-- The value of a decimal digit. -/
def decDigit (c : Char) : Option Nat :=
  if 0x30 ≤ c.toNat ∧ c.toNat ≤ 0x39 then some (c.toNat - 0x30) else none

/-- The value of a hex digit, either case. -/
def hexValue (c : Char) : Option Nat :=
  if 0x41 ≤ c.toNat ∧ c.toNat ≤ 0x46 then some (c.toNat - 0x37)
  else if 0x61 ≤ c.toNat ∧ c.toNat ≤ 0x66 then some (c.toNat - 0x57)
  else decDigit c

/-- R62: a two-digit hex byte. -/
def hexItem : List Char → Option Byte
  | [hi, lo] => do return BitVec.ofNat 8 (16 * (← hexValue hi) + (← hexValue lo))
  | _ => none

/-- A decimal number, most significant digit first, continuing from `acc`. -/
def decNumber : List Char → Nat → Option Nat
  | [], acc => some acc
  | c :: cs, acc => do decNumber cs (10 * acc + (← decDigit c))

/-- R62: a repetition `n*XX` (`*` is code 0x2A), or a single hex byte. -/
def bareItem (cs : List Char) : Option (List Byte) :=
  match cs.span (fun c => c.toNat ≠ 0x2A) with
  | (item, []) => do return [← hexItem item]
  | ([], _ :: _) => none
  | (count, _ :: item) => do return List.replicate (← decNumber count 0) (← hexItem item)

/-- R62: an ASCII character as its code. -/
def asciiByte (c : Char) : Option Byte := if c.toNat < 128 then some (BitVec.ofNat 8 c.toNat) else none

/-- R62: the bytes of one item. -/
def itemBytes : Token → Option (List Byte)
  | .bare cs => bareItem cs
  | .quoted cs => cs.mapM asciiByte

/-- R62: the bytes of an item list, possibly empty. -/
def listBytes (ts : List Token) : Option (List Byte) := (ts.mapM itemBytes).map List.flatten

/-- R62, R63: the command of a mnemonic, upper case, and its items. R63 gives `UPDATEB` one operand, `XX`; here
it takes every item list that stands for exactly one byte (DESIGN CHOICE, notes/assumptions/18.md). -/
def mnemonicCommand (name : List Char) (items : List Token) : Option Instr :=
  if name = ['R', 'E', 'S', 'E', 'T'] ∧ items = [] then some .reset
  else if name = ['U', 'P', 'D', 'A', 'T', 'E'] then (listBytes items).map .update
  else if name = ['F', 'I', 'N', 'A', 'L', 'I', 'Z', 'E'] ∧ items = [] then some .finalize
  else if name = ['T', 'O', 'H', 'E', 'X'] then (listBytes items).map .tohex
  else if name = ['H', 'A', 'S', 'H'] then (listBytes items).map .hash
  else if name = ['N', 'E', 'W'] ∧ items = [] then some .new
  else if name = ['N', 'O', 'P'] ∧ items = [] then some .nop
  else if name = ['U', 'P', 'D', 'A', 'T', 'E', 'B'] then
    match listBytes items with
    | some [v] => some (.updateb v)
    | _ => none
  else none

/-- R62: one line: no command (blank, or a comment only), or one well-formed command. None when the line
is not of the syntax. -/
def assembleLine (line : List Char) : Option (List Instr) :=
  match tokens line .gap with
  | some [] => some []
  | some (.bare name :: items) =>
    match mnemonicCommand name items with
    | some i => if i.wf then some [i] else none
    | none => none
  | _ => none

/-- R62: one command per line, in order. -/
def assemble (lines : List (List Char)) : Option (List Instr) := (lines.mapM assembleLine).map List.flatten

/-- R55: the command stream of a list of commands. -/
def commandStream (is : List Instr) : List Byte := is.flatMap encode

end Sys2Proof.Machine
end

