-- ==== Sys2Proof/Safety.lean ====
section
/-! DEFINITION. What counts as a safe run, in the terms claims use: the invariant of spec/10_state.md R22,
which exception the next command raises (spec/60_exceptions.md R160: a host that keeps its contract meets
none, R162), the documented length limit (R190), and a sequence of commands run in order (R35). -/

namespace Sys2Proof.Machine

/-- R12: the bytes of the buffer, oldest first. -/
def bufferOf (s : State) : List Byte := s.mem.map (·.2)

/-- R12: the buffer space that holds exactly these bytes, from address 0. -/
def cellsOf (bytes : List Byte) : Memory := (List.range bytes.length).zip bytes

/-- R12, R22: the states between commands. The buffer space lists exactly the addresses `0 .. BUFLEN-1`;
`BUFLEN = LEN mod 64`; a finalized instance has an empty buffer (so `LEN mod 64 = 0`). -/
structure Inv (s : State) : Prop where
  valid : s.mem.map (·.1) = List.range s.bufLen.toNat
  residue : s.bufLen.toNat = s.len.toNat % 64
  drained : s.phase = .finalized → s.bufLen = 0

/-- R56: the count `N` of a command word from its stream bytes 1, 2 and 3. -/
def countOf (b1 b2 b3 : Byte) : Nat := b1.toNat + 2 ^ 8 * b2.toNat + 2 ^ 16 * b3.toNat

/-- R59, R161: the `OPC` and `N` of an illegal command word. -/
def IllegalWord (opc n : Nat) : Prop :=
  opc = 0 ∨ 6 ≤ opc ∨ (opc = 1 ∧ n ≠ 0) ∨ (opc = 3 ∧ n ≠ 0) ∨ (opc = 4 ∧ n ≠ 20)

/-- R145, R160: the exception that the next command on the stream raises, if any. -/
def nextException (s : State) : Option Exception :=
  match decode s.cmdIn with
  | .illegal _ _ => some .illegalCommand
  | .command (.update _) _ => if s.phase = .finalized then some .lifecycle else none
  | .command .finalize _ => if s.phase = .finalized then some .lifecycle else none
  | .command .reset _ => none
  | .command (.tohex _) _ => none
  | .command (.hash _) _ => none
  | .incomplete => none

/-- R162: a run of `k` steps in which the host keeps its contract: every step answers a next state and no
command raises an exception (notes/assumptions/1.md). -/
def CleanRun : Nat → State → Prop
  | 0, _ => True
  | k + 1, s => nextException s = none ∧ ∃ t, step s = .next t ∧ CleanRun k t

/-- R190: the bytes fed since the last reset, with `n` more, stay below the documented limit. -/
def withinLimit (s : State) (n : Nat) : Prop := s.len.toNat + n < Config.lenLimit

/-- R35 (b): commands one after the other, each completely before the next. -/
def execAll : List Instr → State → Host.Outcome State Fault Refusal
  | [], s => .next s
  | i :: is, s =>
    match exec i s with
    | .next t => execAll is t
    | .fault f => .fault f
    | .refused r => .refused r

end Sys2Proof.Machine
end

