-- ==== Sys2Proof/Reference.lean ====
section
/-! DEFINITION. The source's own formulation, over a byte sequence that may grow past 64 bytes inside a call,
as claims compare the machine with it: `update` of spec/43_streaming.md R120, `finalize` of
spec/44_finalizer.md R130, the padded message of spec/30_encoding.md R52, and the digest of R135. The
machine itself is the byte-serial realisation of R122 (notes/assumptions/19.md). -/

namespace Sys2Proof.Reference

open Sys2Proof.Machine

/-- R32, R121: block `k` of a byte sequence, bytes `64k .. 64k+63`. Meant for blocks that lie whole in it. -/
def blockAt (S : List Byte) (k : Nat) : Block := fun a => S.getD (64 * k + a.val) 0

/-- R124: COMPRESS folded over the first `m` blocks of a byte sequence, in stream order. -/
def foldBlocks (h : Five) (S : List Byte) : Nat → Five
  | 0 => h
  | m + 1 => compress (foldBlocks h S m) (blockAt S m)

/-- The source's hasher: State, Buffer, Length (spec/10_state.md R10 to R13). -/
structure Hasher where
  h : Five
  buf : List Byte
  len : BitVec 64
deriving DecidableEq, Repr

/-- R24: "State = initial constants, Buffer = empty, Length = 0". -/
def Hasher.new : Hasher := ⟨iv, [], 0⟩

/-- R120, the loop: while 64 bytes are there, compress the leading block and remove it. Each turn removes
64 bytes, so as many turns as there are bytes are enough. -/
def drain : Nat → Hasher → Hasher
  | 0, c => c
  | fuel + 1, c =>
    if 64 ≤ c.buf.length then
      drain fuel { c with h := compress c.h (blockAt c.buf 0), buf := c.buf.drop 64 }
    else c

/-- R120 `update(data)`. -/
def Hasher.update (data : List Byte) (c : Hasher) : Hasher :=
  let buf := c.buf ++ data
  drain buf.length { c with buf := buf, len := c.len + BitVec.ofNat 64 data.length }

/-- R130 step 3: `update` with a zero byte until the buffer holds 56 bytes; 64 turns are enough. -/
def Hasher.zeroFill : Nat → Hasher → Hasher
  | 0, c => c
  | fuel + 1, c => if c.buf.length = 56 then c else Hasher.zeroFill fuel (c.update [0])

/-- R130 steps 1 to 4 with `LEN_SCALE = scale`; the digest is `serialize` of the `h` it leaves. -/
def Hasher.finalize (scale : Nat) (c : Hasher) : Hasher :=
  ((c.update [0x80]).zeroFill 64).update (storeLe64 (BitVec.ofNat 64 (scale * c.len.toNat)))

/-- R52, R131: `z = (55 - n) mod 64`, the number of zero bytes. -/
def zeroCount (n : Nat) : Nat := (119 - n % 64) % 64

/-- R52: the marker, the zero bytes and the length field that follow `n` message bytes. -/
def padding (scale : Nat) (n : Nat) : List Byte :=
  [0x80] ++ List.replicate (zeroCount n) 0 ++ storeLe64 (BitVec.ofNat 64 (scale * n))

/-- R135: the digest of a message. -/
def digest (scale : Nat) (M : List Byte) : List Byte :=
  let P := M ++ padding scale M.length
  serialize (foldBlocks iv P (P.length / 64))

/-- The hasher that a state of the machine holds: the buffer is the valid bytes in arrival order (R12). -/
def hasherOf (s : State) : Hasher := ⟨s.h, bufferOf s, s.len⟩

/-- The state that holds a hasher whose buffer is shorter than 64 bytes; phase and streams are `s`'s. -/
def holding (c : Hasher) (s : State) : State :=
  { s with h := c.h, mem := cellsOf c.buf, bufLen := BitVec.ofNat 6 c.buf.length, len := c.len }

end Sys2Proof.Reference
end

