-- ==== Sys2Proof/Certificates/Slice0/Obligations.lean ====
section
/-! DEFINITION. The statements for the provers, file by file of spec/. A statement that rests on a sentence
the spec marks `[derived: ...]`, or on a choice of the model, says so in its docstring. In all of them: that the
two streams are fields of `State`, that a command leaves the one and appends its response to the other, is
notes/assumptions/2.md; that an emptied buffer space lists no byte is notes/assumptions/5.md; that an exception
is a next state is notes/assumptions/1.md; the table values and `IV`, which the spec gives and marks general
knowledge, are notes/assumptions/9.md. -/

open Sys2Proof Sys2Proof.Machine Sys2Proof.Reference

/-! ### Codec (spec/40_codec.md) -/

/-- R72: on its domain the rotate is the sum of its two parts, and bit `i` goes to bit `(i + n) mod 32`. -/
def Obligations.RotateMovesEveryBit : Prop :=
  ∀ (x : Word) (n : RotAmount),
    (rol x n).toNat = x.toNat * 2 ^ n.val % 2 ^ 32 + x.toNat / 2 ^ (32 - n.val) ∧
    ∀ i < 32, (rol x n).getLsbD ((i + n.val) % 32) = x.getLsbD i

/-- The spec's own inference from its packing and unpacking rules (40_codec.md, "Round trip"): both
directions. -/
def Obligations.PackUnpackRoundTrip : Prop :=
  (∀ w : Word, loadWordLe (storeByte w 0) (storeByte w 1) (storeByte w 2) (storeByte w 3) = w) ∧
  ∀ b0 b1 b2 b3 : Byte, wordBytes (loadWordLe b0 b1 b2 b3) = [b0, b1, b2, b3]

/-- R74: eight bytes, byte `k` is bits `8k+7 .. 8k` of the number; together they give the number back. -/
def Obligations.LengthBytesAreLittleEndian : Prop :=
  ∀ v : BitVec 64, (storeLe64 v).length = 8 ∧
    (∀ k < 8, (storeLe64 v)[k]? = some (BitVec.ofNat 8 (v.toNat / 2 ^ (8 * k) % 256))) ∧
    ((storeLe64 v).foldr (fun b acc => b.toNat + 256 * acc) 0) = v.toNat

/-! ### Round functions and tables (spec/41_round_functions_tables.md) -/

/-- R81 to R85, bit by bit: the five functions as selections of the bits of `x`, `y`, `z`. -/
def Obligations.RoundFunctionsBitwise : Prop :=
  ∀ (x y z : Word) (i : Nat), i < 32 →
    (f0 x y z).getLsbD i = ((x.getLsbD i != y.getLsbD i) != z.getLsbD i) ∧
    (f1 x y z).getLsbD i = (if x.getLsbD i then y.getLsbD i else z.getLsbD i) ∧
    (f2 x y z).getLsbD i = ((x.getLsbD i || !y.getLsbD i) != z.getLsbD i) ∧
    (f3 x y z).getLsbD i = (if z.getLsbD i then x.getLsbD i else y.getLsbD i) ∧
    (f4 x y z).getLsbD i = (x.getLsbD i != (y.getLsbD i || !z.getLsbD i))

/-- The spec's own checks of the tables (41_round_functions_tables.md, section 7, items (a) to (h)): the
tables have 80 entries in their ranges; the message indexes are generated by `rho` from the identity and from
`9 i + 5`, and every quintile is a permutation of 0..15; each rotation amount occurs eight times, 10 never,
and each quintile has its sum; the eight other round constants are the integer parts of 2^30 times the
square roots (`KL`) and cube roots (`KR`) of 2, 3, 5, 7; the two constants the source states are zero. The
spec infers these checks and marks (f) and (g) general knowledge (notes/assumptions/9.md). -/
def Obligations.TablesMeetTheirChecks : Prop :=
  let rho : List Nat := [7, 4, 13, 1, 10, 6, 15, 3, 12, 0, 9, 5, 2, 14, 11, 8]
  (∀ t ∈ [rlTable, rrTable, slTable, srTable], t.length = 80) ∧
  (∀ x ∈ rlTable ++ rrTable, x ≤ 15) ∧ (∀ x ∈ slTable ++ srTable, 5 ≤ x ∧ x ≤ 15 ∧ x ≠ 10) ∧
  (∀ j : Fin 80, (rl j).val = if j.val < 16 then j.val else rho.getD (rlTable.getD (j.val - 16) 0) 0) ∧
  (∀ j : Fin 80, (rr j).val =
    if j.val < 16 then (9 * j.val + 5) % 16 else rho.getD (rrTable.getD (j.val - 16) 0) 0) ∧
  (∀ q : Fin 5, ∀ x : Fin 16, ((rlTable.drop (16 * q.val)).take 16).count x.val = 1 ∧
    ((rrTable.drop (16 * q.val)).take 16).count x.val = 1) ∧
  (∀ x : Fin 16, 5 ≤ x.val → x.val ≠ 10 → slTable.count x.val = 8 ∧ srTable.count x.val = 8) ∧
  (∀ q : Fin 5, ((slTable.drop (16 * q.val)).take 16).sum = [164, 162, 158, 163, 153].getD q.val 0 ∧
    ((srTable.drop (16 * q.val)).take 16).sum = [164, 162, 158, 163, 153].getD q.val 0) ∧
  slTable.sum = 800 ∧ srTable.sum = 800 ∧
  (∀ q : Fin 4, let p := [2, 3, 5, 7].getD q.val 0
    let k := (kl.get q.succ).toNat
    let m := (kr.get q.castSucc).toNat
    (k * k ≤ p * 2 ^ 60 ∧ p * 2 ^ 60 < (k + 1) * (k + 1)) ∧
    m * m * m ≤ p * 2 ^ 90 ∧ p * 2 ^ 90 < (m + 1) * (m + 1) * (m + 1)) ∧
  kl.get 0 = 0 ∧ kr.get 4 = 0

/-! ### Compression (spec/42_compression.md) -/

/-- R102, with R86's left column: one step of the left line, the rotations written with the bit vectors'
own rotate-left; the right line and the schedule are as before. -/
def Obligations.LeftStepFollowsItsFormula : Prop :=
  ∀ (j : Fin 80) (X : Schedule) (a b c d e : Word) (r : Five),
    let f := if j.val < 16 then f0 else if j.val < 32 then f1 else if j.val < 48 then f2
      else if j.val < 64 then f3 else f4
    stepL j ⟨X, ⟨a, b, c, d, e⟩, r⟩ =
      ⟨X, ⟨e, (a + f b c d + X (rl j) + kl.get (quintile j)).rotateLeft (sl j).val + e, b,
        c.rotateLeft 10, d⟩, r⟩

/-- R103, with R86's right column: the function is mirrored, the constant is not. -/
def Obligations.RightStepFollowsItsFormula : Prop :=
  ∀ (j : Fin 80) (X : Schedule) (a b c d e : Word) (l : Five),
    let f := if j.val < 16 then f4 else if j.val < 32 then f3 else if j.val < 48 then f2
      else if j.val < 64 then f1 else f0
    stepR j ⟨X, l, ⟨a, b, c, d, e⟩⟩ =
      ⟨X, l, ⟨e, (a + f b c d + X (rr j) + kr.get (quintile j)).rotateLeft (sr j).val + e, b,
        c.rotateLeft 10, d⟩⟩

/-- The spec's own inference (42_compression.md, the step loop; 20_memory.md, ordering (d)): all 80 steps
of the left line and then all 80 of the right give the same registers. -/
def Obligations.LinesMayRunOneAfterTheOther : Prop :=
  ∀ d : Datapath,
    stepLoop d = (List.finRange 80).foldl (fun d j => stepR j d) ((List.finRange 80).foldl (fun d j => stepL j d) d)

/-- R105: the cross-combination, written out, from the old State words. -/
def Obligations.CombineCrossPattern : Prop :=
  ∀ (X : Schedule) (h0 h1 h2 h3 h4 a b c d e a' b' c' d' e' : Word),
    combine ⟨h0, h1, h2, h3, h4⟩ ⟨X, ⟨a, b, c, d, e⟩, ⟨a', b', c', d', e'⟩⟩ =
      ⟨h1 + c + d', h2 + d + e', h3 + e + a', h4 + a + b', h0 + b + c'⟩

/-- R100 with R40: `X[i]` is the little-endian word at buffer address `4i`, of four bytes that are written. -/
def Obligations.ScheduleIsLittleEndianBufferWords : Prop :=
  ∀ (m : Memory) (B : Block), Memory.readBlock m = .ok B → ∀ i : Fin 16, ∃ b0 b1 b2 b3 : Byte,
    m.read (4 * i.val) = some b0 ∧ m.read (4 * i.val + 1) = some b1 ∧
    m.read (4 * i.val + 2) = some b2 ∧ m.read (4 * i.val + 3) = some b3 ∧
    (decodeBlock B i).toNat = b0.toNat + 2 ^ 8 * b1.toNat + 2 ^ 16 * b2.toNat + 2 ^ 24 * b3.toNat ∧
    m.readWord i = some (decodeBlock B i)

/-! ### Encoding (spec/30_encoding.md) -/

/-- R55, R56, R58: a well-formed command's stream bytes decode to it, whatever follows them. -/
def Obligations.DecodeOfEncode : Prop :=
  ∀ (i : Instr) (rest : List Byte), i.wf = true → decode (encode i ++ rest) = .command i rest

/-- R55 to R58, the other direction: what decodes to a command is that command's encoding and the rest, and
the command is well formed, so no other bytes spell it. -/
def Obligations.DecodedBytesAreTheEncoding : Prop :=
  ∀ (bytes : List Byte) (i : Instr) (rest : List Byte), decode bytes = .command i rest →
    i.wf = true ∧ bytes = encode i ++ rest

/-- R57, R59: a command word's `OPC` and `N` decide its operation, and it is illegal exactly in the cases of
R59. -/
def Obligations.OpcodeMapByFields : Prop :=
  ∀ w : Word,
    (decodeWord w = none ↔ IllegalWord (wordOpc w).toNat (wordCount w)) ∧
    (decodeWord w = some .reset ↔ (wordOpc w).toNat = 1 ∧ wordCount w = 0) ∧
    (decodeWord w = some .update ↔ (wordOpc w).toNat = 2) ∧
    (decodeWord w = some .finalize ↔ (wordOpc w).toNat = 3 ∧ wordCount w = 0) ∧
    (decodeWord w = some .tohex ↔ (wordOpc w).toNat = 4 ∧ wordCount w = 20) ∧
    (decodeWord w = some .hash ↔ (wordOpc w).toNat = 5)

/-- Words written out from R56, R57 and R62 decode to the commands they stand for. -/
def Obligations.WrittenOutWordsDecode : Prop :=
  decode [0x01, 0x00, 0x00, 0x00] = .command .reset [] ∧
  decode [0x02, 0x03, 0x00, 0x00, 0x61, 0x62, 0x63] = .command (.update [0x61, 0x62, 0x63]) [] ∧
  decode [0x03, 0x00, 0x00, 0x00, 0x01] = .command .finalize [0x01] ∧
  decode ([0x04, 0x14, 0x00, 0x00] ++ List.replicate 20 0xAB) = .command (.tohex (List.replicate 20 0xAB)) [] ∧
  decode [0x05, 0x00, 0x00, 0x00] = .command (.hash []) []

/-- R55: bytes that arrive later do not change what a whole command, legal or illegal, is. -/
def Obligations.LaterBytesKeepFraming : Prop :=
  ∀ (bytes more : List Byte),
    (∀ i rest, decode bytes = .command i rest → decode (bytes ++ more) = .command i (rest ++ more)) ∧
    (∀ why rest, decode bytes = .illegal why rest → decode (bytes ++ more) = .illegal why (rest ++ more))

/-! ### Steps (spec/46_commands.md, spec/60_exceptions.md, spec/70_reset_and_hazards.md) -/

/-- R145: when the bytes on the command stream decode to a command, the step consumes them and is `exec` of
that command. -/
def Obligations.StepRunsDecodedCommand : Prop :=
  ∀ (s : State) (i : Instr) (rest : List Byte), decode s.cmdIn = .command i rest →
    step s = exec i { s with cmdIn := rest }

/-- R145, the dispatch of a whole command: the format check, then the lifecycle check, each ending the command
with no state change and a fault response, then the command's own meaning, on the payload. -/
def Obligations.DispatchFollowsItsOrder : Prop :=
  ∀ (s : State) (b0 b1 b2 b3 : Byte) (payload rest : List Byte), payload.length = countOf b1 b2 b3 →
    s.cmdIn = b0 :: b1 :: b2 :: b3 :: (payload ++ rest) →
    let illegal := IllegalWord b0.toNat (countOf b1 b2 b3)
    let misused := (b0.toNat = 2 ∨ b0.toNat = 3) ∧ s.phase = .finalized
    (illegal → step s = .next { s with cmdIn := rest, respOut := s.respOut ++ [0x01, 0x00, 0x00, 0x00] }) ∧
    (¬ illegal → misused →
      step s = .next { s with cmdIn := rest, respOut := s.respOut ++ [0x02, 0x00, 0x00, 0x00] }) ∧
    (¬ illegal → ¬ misused → ∃ i : Instr, i.wf = true ∧ i.opcode = b0.toNat ∧ i.payload = payload ∧
      step s = exec i { s with cmdIn := rest })

/-- "the engine does nothing with an incomplete command" (R55): with fewer than `4 + N` bytes on the stream
the step keeps the whole state. -/
def Obligations.IncompleteCommandWaits : Prop :=
  ∀ s : State,
    (s.cmdIn.length < 4 ∨ ∃ b0 b1 b2 b3 t, s.cmdIn = b0 :: b1 :: b2 :: b3 :: t ∧ t.length < countOf b1 b2 b3) →
    step s = .next s

/-- R161, R59: an illegal word's announced payload is consumed and discarded, no state changes, and the
response carries status 0x01 with no payload. -/
def Obligations.IllegalCommandIsRefusedInPlace : Prop :=
  ∀ (s : State) (b0 b1 b2 b3 : Byte) (payload rest : List Byte),
    IllegalWord b0.toNat (countOf b1 b2 b3) → payload.length = countOf b1 b2 b3 →
    s.cmdIn = b0 :: b1 :: b2 :: b3 :: (payload ++ rest) →
    step s = .next { s with cmdIn := rest, respOut := s.respOut ++ [0x01, 0x00, 0x00, 0x00] }

/-- R163: only `FINALIZE` with `N` not 0 meets both conditions at once, and after a finalize it reports
`IllegalCommand`, while with `N` = 0 it reports `Lifecycle`: the format check comes first. -/
def Obligations.FormatCheckBeforeLifecycle : Prop :=
  (∀ w : Word, decodeWord w = none → (wordOpc w).toNat = 2 ∨ (wordOpc w).toNat = 3 →
    (wordOpc w).toNat = 3 ∧ wordCount w ≠ 0) ∧
  ∀ (s : State) (b1 b2 b3 : Byte) (payload rest : List Byte), s.phase = .finalized →
    payload.length = countOf b1 b2 b3 → s.cmdIn = 0x03 :: b1 :: b2 :: b3 :: (payload ++ rest) →
    step s = .next { s with cmdIn := rest,
                            respOut := s.respOut ++ [if payload = [] then 0x02 else 0x01, 0x00, 0x00, 0x00] }

/-- R162, R164: `UPDATE` (even of nothing) and `FINALIZE` after a finalize change nothing and respond with status
0x02. -/
def Obligations.LifecycleMisuseIsRefused : Prop :=
  ∀ (s : State) (data : List Byte), s.phase = .finalized →
    exec (.update data) s = .next { s with respOut := s.respOut ++ [0x02, 0x00, 0x00, 0x00] } ∧
    exec .finalize s = .next { s with respOut := s.respOut ++ [0x02, 0x00, 0x00, 0x00] }

/-- R165: any number of misused commands in a row each get their own fault response and leave the state as
it was. -/
def Obligations.MisuseInARowLeavesNoTrace : Prop :=
  ∀ (is : List Instr) (s : State), s.phase = .finalized →
    (∀ i ∈ is, i = .finalize ∨ ∃ data, i = .update data) →
    execAll is s =
      .next { s with respOut := s.respOut ++ (List.replicate is.length [0x02, 0x00, 0x00, 0x00]).flatten }

/-- R169, with the acceptance table of R145: from every state between commands every well-formed command ends
in a next state; `UPDATE` and `FINALIZE` after a finalize answer `Lifecycle`, and every accepted command runs
to its `OK` response. -/
def Obligations.AcceptanceByPhase : Prop :=
  ∀ (s : State) (i : Instr), Inv s → i.wf = true → ∃ (t : State) (payload : List Byte), exec i s = .next t ∧
    match i, s.phase with
    | .update _, .finalized => t.respOut = s.respOut ++ [0x02, 0x00, 0x00, 0x00]
    | .finalize, .finalized => t.respOut = s.respOut ++ [0x02, 0x00, 0x00, 0x00]
    | .reset, _ => t.respOut = s.respOut ++ [0x00, 0x00, 0x00, 0x00]
    | .update _, .active => t.respOut = s.respOut ++ [0x00, 0x00, 0x00, 0x00]
    | .finalize, .active => t.respOut = s.respOut ++ [0x00, 0x14, 0x00, 0x00] ++ payload ∧ payload.length = 20
    | .tohex _, _ => t.respOut = s.respOut ++ [0x00, 0x28, 0x00, 0x00] ++ payload ∧ payload.length = 40
    | .hash _, _ => t.respOut = s.respOut ++ [0x00, 0x28, 0x00, 0x00] ++ payload ∧ payload.length = 40

/-- R60: every whole command on the stream gets exactly one response, a response word and its payload: the
five possible words, each with the payload length that the command and its outcome give it. -/
def Obligations.OneResponsePerCommand : Prop :=
  ∀ s : State, Inv s → decode s.cmdIn ≠ .incomplete →
    ∃ (t : State) (word payload : List Byte), step s = .next t ∧ t.respOut = s.respOut ++ word ++ payload ∧
      (word, payload.length) ∈
        (match decode s.cmdIn with
        | .command .reset _ => [([0x00, 0x00, 0x00, 0x00], 0)]
        | .command (.update _) _ => [([0x00, 0x00, 0x00, 0x00], 0), ([0x02, 0x00, 0x00, 0x00], 0)]
        | .command .finalize _ => [([0x00, 0x14, 0x00, 0x00], 20), ([0x02, 0x00, 0x00, 0x00], 0)]
        | .command (.tohex _) _ => [([0x00, 0x28, 0x00, 0x00], 40)]
        | .command (.hash _) _ => [([0x00, 0x28, 0x00, 0x00], 40)]
        | .illegal _ _ => [([0x01, 0x00, 0x00, 0x00], 0)]
        | .incomplete => [] : List (List Byte × Nat))

/-- R35 (b): well-formed commands on the stream take effect in the order they were issued, each completely
before the next, one step each. -/
def Obligations.CommandsRunInStreamOrder : Prop :=
  ∀ (is : List Instr) (s : State) (rest : List Byte), (∀ i ∈ is, i.wf = true) →
    Host.Core.run Sys2Proof.core is.length { s with cmdIn := commandStream is ++ rest } =
      execAll is { s with cmdIn := rest }

/-- R183 (b), R162: a host that sends any number of `UPDATE`, one `FINALIZE` and then `RESET` to an open
computation meets no exception and no stop. -/
def Obligations.ContractKeepingHostMeetsNoFault : Prop :=
  ∀ (s : State) (chunks : List (List Byte)), Inv s → s.phase = .active →
    (∀ c ∈ chunks, c.length ≤ Config.nMax) →
    CleanRun (chunks.length + 2) { s with cmdIn := commandStream (chunks.map .update ++ [.finalize, .reset]) }

/-! ### Reset -/

/-- R24: the values after power-on, and after every `RESET`. -/
def Obligations.StateAfterReset : Prop :=
  let initial (t : State) : Prop :=
    t.h = ⟨0x67452301, 0xEFCDAB89, 0x98BADCFE, 0x10325476, 0xC3D2E1F0⟩ ∧ t.bufLen = 0 ∧ bufferOf t = [] ∧
      t.len = 0 ∧ t.phase = .active
  initial State.reset ∧ ∀ s : State, ∃ t, exec .reset s = .next t ∧ initial t

/-- R146: `RESET` is `01 00 00 00`; in both phases this is all of its effect, and nothing else changes; with a
payload it is `IllegalCommand`. -/
def Obligations.ResetRestoresInitialState : Prop :=
  encode .reset = [0x01, 0x00, 0x00, 0x00] ∧ ∀ s : State,
    exec .reset s = .next
      { h := ⟨0x67452301, 0xEFCDAB89, 0x98BADCFE, 0x10325476, 0xC3D2E1F0⟩, mem := [], bufLen := 0, len := 0,
        phase := .active, cmdIn := s.cmdIn, respOut := s.respOut ++ [0x00, 0x00, 0x00, 0x00] } ∧
    ∀ (b1 b2 b3 : Byte) (payload rest : List Byte), payload.length = countOf b1 b2 b3 → payload ≠ [] →
      s.cmdIn = 0x01 :: b1 :: b2 :: b3 :: (payload ++ rest) →
      step s = .next { s with cmdIn := rest, respOut := s.respOut ++ [0x01, 0x00, 0x00, 0x00] }

/-- R26, R181: after `RESET`, and after `HASH data`, nothing of the earlier computation is left, in the state
or in the response: any two instances with the same streams end alike. -/
def Obligations.ResetAndHashForgetThePast : Prop :=
  ∀ (s t : State) (data : List Byte), s.cmdIn = t.cmdIn → s.respOut = t.respOut →
    exec .reset s = exec .reset t ∧ exec (.hash data) s = exec (.hash data) t

/-! ### Streaming (spec/43_streaming.md) -/

/-- R120: `UPDATE` in an open computation is the source's `update`, whose loop slices off leading 64-byte
blocks, on the hasher the state holds; the machine itself is the byte-serial form. It responds `OK`, and
phase and command stream are as before. -/
def Obligations.UpdateFollowsTheSourceLoop : Prop :=
  ∀ (s : State) (data : List Byte), Inv s → s.phase = .active →
    let c := (hasherOf s).update data
    c.buf.length < 64 ∧
    exec (.update data) s =
      .next { holding c s with respOut := s.respOut ++ [0x00, 0x00, 0x00, 0x00] }

/-- The spec's own inference from the loop (43_streaming.md): `(b + n) div 64` compressions, of the blocks in
stream order; `(b + n) mod 64` bytes stay, and every address reads the byte of the rest it holds, or
nothing. -/
def Obligations.UpdateClosedForm : Prop :=
  ∀ (s : State) (data : List Byte), Inv s → s.phase = .active →
    let S := bufferOf s ++ data
    let m := (s.bufLen.toNat + data.length) / 64
    ∃ t, exec (.update data) s = .next t ∧
      t.h = foldBlocks s.h S m ∧ t.bufLen.toNat = (s.bufLen.toNat + data.length) % 64 ∧
      bufferOf t = S.drop (64 * m) ∧ (∀ a, Memory.read t.mem a = (S.drop (64 * m))[a]?) ∧
      t.len = s.len + BitVec.ofNat 64 data.length

/-- The frame of an `UPDATE` that completes no block: every State word, the phase and the command stream are
unchanged, and every byte of the buffer space outside the addresses from `BUFLEN` on that the payload is
stored to reads as before. -/
def Obligations.UpdateStoresAtWritePosition : Prop :=
  ∀ (s : State) (data : List Byte), Inv s → s.phase = .active → s.bufLen.toNat + data.length < 64 →
    ∃ t, exec (.update data) s = .next t ∧ t.h = s.h ∧ t.phase = s.phase ∧ t.cmdIn = s.cmdIn ∧
      ∀ a, Memory.read t.mem a =
        if s.bufLen.toNat ≤ a ∧ a < s.bufLen.toNat + data.length then data[a - s.bufLen.toNat]?
        else Memory.read s.mem a

/-- What an `UPDATE` leaves alone in every open computation, with no invariant assumed, and R125: `LEN` advances
by the payload's length, modulo 2^64. (After a finalize `UPDATE` is refused: LifecycleMisuseIsRefused.) -/
def Obligations.UpdateFrameAndCount : Prop :=
  ∀ (s t : State) (data : List Byte), s.phase = .active → exec (.update data) s = .next t →
    t.len = s.len + BitVec.ofNat 64 data.length ∧ t.phase = s.phase ∧ t.cmdIn = s.cmdIn ∧
    t.respOut = s.respOut ++ [0x00, 0x00, 0x00, 0x00]

/-- The spec's own inference (43_streaming.md, "Empty update"): an empty `UPDATE` of an open computation
changes nothing but the response stream, with no invariant assumed. -/
def Obligations.EmptyUpdateChangesNothing : Prop :=
  ∀ s : State, s.phase = .active →
    exec (.update []) s = .next { s with respOut := s.respOut ++ [0x00, 0x00, 0x00, 0x00] }

/-- R123: however a byte sequence is split into consecutive chunks (empty ones among them), feeding the chunks
leaves the same state but for the responses as feeding it whole, and `FINALIZE` then returns the same
digest. -/
def Obligations.ChunkingNeverMatters : Prop :=
  ∀ (s : State) (chunks : List (List Byte)), Inv s → s.phase = .active →
    ∃ t u t' u' DG, execAll (chunks.map .update) s = .next t ∧ exec (.update chunks.flatten) s = .next u ∧
      t = { u with respOut := t.respOut } ∧
      exec .finalize t = .next t' ∧ exec .finalize u = .next u' ∧
      t'.respOut = t.respOut ++ [0x00, 0x14, 0x00, 0x00] ++ DG ∧
      u'.respOut = u.respOut ++ [0x00, 0x14, 0x00, 0x00] ++ DG

/-- R190: below the documented limit `LEN` counts exactly, in `UPDATE` and in the padding of `FINALIZE`, which
adds at most 72. -/
def Obligations.LengthIsExactBelowTheLimit : Prop :=
  ∀ (s : State) (data : List Byte), Inv s → s.phase = .active → withinLimit s data.length →
    ∃ t u, exec (.update data) s = .next t ∧ t.len.toNat = s.len.toNat + data.length ∧
      exec .finalize t = .next u ∧ t.len.toNat < u.len.toNat ∧ u.len.toNat ≤ t.len.toNat + 72 ∧
      Machine.lenScale * t.len.toNat < 2 ^ 64 ∧ 8 * t.len.toNat < 2 ^ 64

/-! ### Finalizer (spec/44_finalizer.md) -/

/-- R130, R149: `FINALIZE` in an open computation is the source's six steps on the hasher the state holds,
then `PHASE <- FINALIZED`; it responds `OK` with the digest. -/
def Obligations.FinalizeFollowsTheSourceSteps : Prop :=
  ∀ s : State, Inv s → s.phase = .active →
    let c := (hasherOf s).finalize Machine.lenScale
    c.buf = [] ∧
    exec .finalize s =
      .next { holding c s with phase := .finalized,
                               respOut := s.respOut ++ [0x00, 0x14, 0x00, 0x00] ++ serialize c.h }

/-- The spec's own inference (44_finalizer.md, how much padding, state after `finalize`; 30_encoding.md, padded
message layout): the blocks of the buffered bytes, the marker, `(55 - n) mod 64` zero bytes and the length
field are compressed in order, one block when the residue is at most 55 and two from 56 on; the buffer
space is left with no valid byte. -/
def Obligations.FinalizeClosedForm : Prop :=
  ∀ s : State, Inv s → s.phase = .active →
    let P := bufferOf s ++ padding Machine.lenScale s.len.toNat
    let h' := foldBlocks s.h P (P.length / 64)
    P.length % 64 = 0 ∧ P.length / 64 = (if s.bufLen.toNat ≤ 55 then 1 else 2) ∧
    exec .finalize s = .next
      { h := h', mem := [], bufLen := 0,
        len := s.len + BitVec.ofNat 64 (padding Machine.lenScale s.len.toNat).length, phase := .finalized,
        cmdIn := s.cmdIn, respOut := s.respOut ++ [0x00, 0x14, 0x00, 0x00] ++ serialize h' }

/-- R133: twenty digest bytes, byte `i` is byte `i mod 4` of State word `i div 4`, least significant first. -/
def Obligations.DigestBytesFromStateWords : Prop :=
  ∀ h : Five, (serialize h).length = 20 ∧ ∀ i : Fin 20, ∃ b, (serialize h)[i.val]? = some b ∧
    b.toNat = (h.get ⟨i.val / 4, by omega⟩).toNat / 2 ^ (8 * (i.val % 4)) % 256

/-- The spec's own consequence of the codec's round trip (40_codec.md): the digest bytes determine the State
words. -/
def Obligations.DigestDeterminesStateWords : Prop :=
  ∀ h k : Five, serialize h = serialize k → h = k

/-- The spec's own inference (44_finalizer.md, the function computed): below the documented limit, after a reset,
the digest returned for a message fed in any chunks is the fold of COMPRESS from `IV` over the blocks of
the padded message, and depends on the message alone. -/
def Obligations.DigestOfChunkedMessage : Prop :=
  ∀ (s : State) (chunks : List (List Byte)), chunks.flatten.length < Config.lenLimit →
    ∃ t, execAll ([.reset] ++ chunks.map .update ++ [.finalize]) s = .next t ∧
      t.respOut = s.respOut ++ (List.replicate (chunks.length + 1) [0x00, 0x00, 0x00, 0x00]).flatten ++
        [0x00, 0x14, 0x00, 0x00] ++ digest Machine.lenScale chunks.flatten

/-- R136 (a): for the empty message every length convention gives the same digest. -/
def Obligations.EmptyMessageIgnoresLengthScale : Prop :=
  ∀ scale : Nat, digest scale [] = digest Machine.lenScale []

/-! ### Hex encoder and the commands that use it (spec/45_hex_encoder.md, spec/46_commands.md) -/

/-- R140, R141: two characters of `0123456789abcdef` for each byte, the high nibble first, in order; so forty
for twenty bytes; and injective. -/
def Obligations.HexEncoderRendersNibbles : Prop :=
  let digits : List Byte := [0x30, 0x31, 0x32, 0x33, 0x34, 0x35, 0x36, 0x37, 0x38, 0x39, 0x61, 0x62, 0x63, 0x64,
    0x65, 0x66]
  (∀ dg : List Byte, (toHex dg).length = 2 * dg.length ∧ ∀ i < dg.length, ∃ b, dg[i]? = some b ∧
    (toHex dg)[2 * i]? = digits[b.toNat / 16]? ∧ (toHex dg)[2 * i + 1]? = digits[b.toNat % 16]?) ∧
  ∀ d e : List Byte, toHex d = toHex e → d = e

/-- R150: `TOHEX` of 20 bytes is `04 14 00 00` and the bytes; in every state and both phases it answers their
hex string and changes nothing else; with any other `N` it is `IllegalCommand`. -/
def Obligations.TohexAnswersTheHexString : Prop :=
  ∀ s : State,
    (∀ dg : List Byte, dg.length = 20 → encode (.tohex dg) = [0x04, 0x14, 0x00, 0x00] ++ dg ∧
      exec (.tohex dg) s = .next { s with respOut := s.respOut ++ [0x00, 0x28, 0x00, 0x00] ++ toHex dg }) ∧
    ∀ (b1 b2 b3 : Byte) (payload rest : List Byte), payload.length = countOf b1 b2 b3 → payload.length ≠ 20 →
      s.cmdIn = 0x04 :: b1 :: b2 :: b3 :: (payload ++ rest) →
      step s = .next { s with cmdIn := rest, respOut := s.respOut ++ [0x01, 0x00, 0x00, 0x00] }

/-- R151: `HASH data`, in every state and both phases, is a fresh hasher fed with the data and finalized by
the source's steps, of which the response holds the hex string only; the instance ends `FINALIZED`. -/
def Obligations.HashIsFreshUpdateFinalizeHex : Prop :=
  ∀ (s : State) (data : List Byte),
    let c := (Hasher.new.update data).finalize Machine.lenScale
    exec (.hash data) s =
      .next { holding c s with phase := .finalized,
                               respOut := s.respOut ++ [0x00, 0x28, 0x00, 0x00] ++ toHex (serialize c.h) }

/-- The spec's own inference (46_commands.md, equivalence of `HASH` with the explicit sequence): `HASH data` ends
in the state of `RESET`, `UPDATE data`, `FINALIZE` but for the responses, and returns the string that
`TOHEX` of the digest returned there gives. -/
def Obligations.HashEqualsExplicitSequence : Prop :=
  ∀ (s : State) (data : List Byte), data.length ≤ Config.nMax →
    ∃ t u v DG HX, execAll [.reset, .update data, .finalize] s = .next t ∧ exec (.tohex DG) t = .next u ∧
      exec (.hash data) s = .next v ∧
      t.respOut = s.respOut ++ [0x00, 0x00, 0x00, 0x00] ++ [0x00, 0x00, 0x00, 0x00] ++
        [0x00, 0x14, 0x00, 0x00] ++ DG ∧
      u.respOut = t.respOut ++ [0x00, 0x28, 0x00, 0x00] ++ HX ∧
      v.respOut = s.respOut ++ [0x00, 0x28, 0x00, 0x00] ++ HX ∧ v = { t with respOut := v.respOut }

/-! ### Invariants and whole-machine rules -/

/-- The invariant holds after power-on. -/
def Obligations.InvariantAtPowerOn : Prop := Inv State.reset

/-- R22 (a) to (c), with the buffer space in its canonical form: every step keeps the invariant. -/
def Obligations.EveryStepKeepsTheInvariant : Prop :=
  ∀ s t : State, Inv s → step s = .next t → Inv t ∧ Memory.wf t.mem

/-- R169: no command fails part-way: from every state between commands, whatever is on the command stream, the
step answers a next state. -/
def Obligations.EveryStepAnswersANextState : Prop :=
  ∀ s : State, Inv s → ∃ t, step s = .next t

/-- R14: the lifecycle flag is written by `RESET`, by a completed `FINALIZE` and by a completed `HASH`, and
by nothing else. -/
def Obligations.PhaseWrittenByThreeCommands : Prop :=
  ∀ (i : Instr) (s t : State), exec i s = .next t →
    t.phase = match i with
      | .reset => .active
      | .update _ => s.phase
      | .finalize => .finalized
      | .tohex _ => s.phase
      | .hash _ => .finalized

/-- R164 (b), R165, R185: while `FINALIZED`, nothing of the engine's state changes until a `RESET` or a `HASH`, and
only `RESET` opens a computation again. -/
def Obligations.FinalizedUntilResetOrHash : Prop :=
  ∀ s t : State, s.phase = .finalized → step s = .next t →
    ((∀ rest, decode s.cmdIn ≠ .command .reset rest) → t.phase = .finalized) ∧
    ((∀ rest, decode s.cmdIn ≠ .command .reset rest) →
      (∀ data rest, decode s.cmdIn ≠ .command (.hash data) rest) →
      t.h = s.h ∧ t.mem = s.mem ∧ t.bufLen = s.bufLen ∧ t.len = s.len)

/-- R35, R153: a command neither reads nor writes the streams beyond its own response: on other stream contents
it does the same to the engine and appends the same response. -/
def Obligations.CommandsIgnoreTheStreams : Prop :=
  ∀ (i : Instr) (s t : State) (inB outB : List Byte), exec i s = .next t →
    ∃ resp, t.cmdIn = s.cmdIn ∧ t.respOut = s.respOut ++ resp ∧
      exec i { s with cmdIn := inB, respOut := outB } = .next { t with cmdIn := inB, respOut := outB ++ resp }
end

