-- ==== Sys2Proof/Laws/Codec.lean ====
section
/-! SUPPORT. The codec's operations as numbers, one lemma per function. -/

namespace Sys2Proof.Machine

theorem loadWordLe_toNat (b0 b1 b2 b3 : Byte) :
    (loadWordLe b0 b1 b2 b3).toNat =
      b0.toNat + 2 ^ 8 * b1.toNat + 2 ^ 16 * b2.toNat + 2 ^ 24 * b3.toNat := by
  have := b0.isLt; have := b1.isLt; have := b2.isLt; have := b3.isLt
  simp only [loadWordLe, BitVec.toNat_ofNat]
  omega

theorem storeByte_toNat (w : Word) (k : Fin 4) :
    (storeByte w k).toNat = w.toNat / 2 ^ (8 * k.val) % 2 ^ 8 := by
  simp [storeByte]

/-- R72: on its domain the rotate is the bit vectors' own rotate-left. -/
theorem rol_eq_rotateLeft (x : Word) (n : RotAmount) : rol x n = x.rotateLeft n.val := by
  obtain ⟨n, h1, h2⟩ := n
  have hx := x.isLt
  have hlow : x.toNat * 2 ^ n % 2 ^ 32 = 2 ^ n * (x.toNat % 2 ^ (32 - n)) := by
    rw [Nat.mul_comm, ← Nat.mul_mod_mul_left, ← Nat.pow_add, Nat.add_sub_cancel' (by omega)]
  have hhigh : x.toNat / 2 ^ (32 - n) < 2 ^ n := by
    rw [Nat.div_lt_iff_lt_mul (Nat.two_pow_pos _), ← Nat.pow_add, Nat.add_sub_cancel' (by omega)]
    exact hx
  apply BitVec.eq_of_toNat_eq
  rw [BitVec.toNat_rotateLeft, rol, BitVec.toNat_ofNat, Nat.mod_eq_of_lt (a := n) (by omega),
    Nat.shiftLeft_eq, Nat.shiftRight_eq_div_pow, hlow, ← Nat.two_pow_add_eq_or_of_lt hhigh]
  apply Nat.mod_eq_of_lt
  calc 2 ^ n * (x.toNat % 2 ^ (32 - n)) + x.toNat / 2 ^ (32 - n)
      < 2 ^ n * (x.toNat % 2 ^ (32 - n)) + 2 ^ n := by omega
    _ = 2 ^ n * (x.toNat % 2 ^ (32 - n) + 1) := by ring
    _ ≤ 2 ^ n * 2 ^ (32 - n) := Nat.mul_le_mul_left _ (Nat.mod_lt _ (Nat.two_pow_pos _))
    _ = 2 ^ 32 := by rw [← Nat.pow_add, Nat.add_sub_cancel' (by omega)]

@[simp] theorem wordBytes_length (w : Word) : (wordBytes w).length = 4 := rfl

@[simp] theorem storeLe64_length (v : BitVec 64) : (storeLe64 v).length = 8 := by simp [storeLe64]

end Sys2Proof.Machine
end

