-- ==== Sys2Proof/Laws/Decode.lean ====
section
/-! SUPPORT. The fields of a command word and the row test of the opcode map as numbers, and the framing of a
stream that holds a whole word. -/

namespace Sys2Proof

open Sys2Proof.Machine

theorem wordOpc_loadWordLe (b0 b1 b2 b3 : Byte) : wordOpc (loadWordLe b0 b1 b2 b3) = b0 := by
  apply BitVec.eq_of_toNat_eq
  have := b0.isLt
  rw [wordOpc, BitVec.toNat_ofNat, loadWordLe_toNat]
  omega

theorem wordCount_loadWordLe (b0 b1 b2 b3 : Byte) :
    wordCount (loadWordLe b0 b1 b2 b3) = countOf b1 b2 b3 := by
  have := b0.isLt
  rw [wordCount, loadWordLe_toNat, countOf]
  omega

/-- A row whose mask is all ones covers its own word only. -/
theorem covers_full (op : Op) (p w : Word) : (OpcodeRow.mk op p 0xFFFFFFFF).covers w = true ↔ w = p := by
  have h : w &&& 0xFFFFFFFF = w := by
    apply BitVec.eq_of_toNat_eq
    rw [BitVec.toNat_and]
    have := w.isLt
    exact (Nat.and_two_pow_sub_one_eq_mod w.toNat 32).trans (Nat.mod_eq_of_lt this)
  simp only [OpcodeRow.covers, beq_iff_eq, h]

/-- A row whose mask is the opcode byte covers the words with its opcode. -/
theorem covers_opcode (op : Op) (p w : Word) :
    (OpcodeRow.mk op p 0x000000FF).covers w = true ↔ w.toNat % 256 = p.toNat := by
  have h : (w &&& 0x000000FF).toNat = w.toNat % 256 := by
    rw [BitVec.toNat_and]
    exact Nat.and_two_pow_sub_one_eq_mod w.toNat 8
  simp only [OpcodeRow.covers, beq_iff_eq]
  rw [← h]
  exact BitVec.toNat_inj.symm

/-- R55: the decoder on a stream that holds a whole command word. -/
theorem decode_cons (b0 b1 b2 b3 : Byte) (t : List Byte) :
    decode (b0 :: b1 :: b2 :: b3 :: t) =
      if t.length < countOf b1 b2 b3 then .incomplete
      else
        match decodeWord (loadWordLe b0 b1 b2 b3) with
        | some op => .command (op.withPayload (t.take (countOf b1 b2 b3))) (t.drop (countOf b1 b2 b3))
        | none => .illegal (illegalReason (loadWordLe b0 b1 b2 b3)) (t.drop (countOf b1 b2 b3)) := by
  simp only [decode, wordCount_loadWordLe] <;> rfl

/-- R56: the command word of a well-formed command as a number. -/
theorem commandWord_toNat {i : Instr} (h : i.wf = true) :
    (commandWord i).toNat = i.opcode + 2 ^ 8 * i.payload.length := by
  rw [commandWord, BitVec.toNat_ofNat, Nat.mod_eq_of_lt]
  cases i <;> simp [Instr.wf, Instr.opcode, Instr.payload, Config.nMax, Config.digestBytes] at * <;> omega

end Sys2Proof
end

