-- ==== Sys2Proof/Laws/Memory.lean ====
section
/-! SUPPORT. The buffer space: read after write, the canonical form kept by every memory operation, and the
form that the valid bytes have. -/

namespace Sys2Proof.Machine

/-- R40: "a read returns the value last written at that address". -/
theorem Memory.read_write_same (m : Memory) (a : Nat) (v : Byte) : (Memory.write m a v).read a = some v := by
  induction m with
  | nil => simp [Memory.write, Memory.read]
  | cons c m ih =>
    simp only [Memory.write]
    split
    · simp [Memory.read]
    · split
      · simp [Memory.read]
      · rename_i h1 h2
        simp only [Memory.read]
        rw [if_neg (fun h => h2 h.symm), ih]

/-- R40: a write leaves every other address alone. -/
theorem Memory.read_write_other (m : Memory) {a b : Nat} (v : Byte) (hab : b ≠ a) :
    (Memory.write m a v).read b = m.read b := by
  induction m with
  | nil => simp [Memory.write, Memory.read, hab.symm]
  | cons c m ih =>
    simp only [Memory.write]
    split
    · simp [Memory.read, hab.symm]
    · split
      · rename_i h1 h2
        have : c.1 ≠ b := fun h => hab (by omega)
        simp [Memory.read, hab.symm, this]
      · simp only [Memory.read, ih]

theorem Memory.mem_write {m : Memory} {a : Nat} {v : Byte} {c : Host.Cell}
    (h : c ∈ Memory.write m a v) : c = (a, v) ∨ c ∈ m := by
  induction m with
  | nil => simp [Memory.write] at h; exact .inl h
  | cons d m ih =>
    simp only [Memory.write] at h
    split at h
    · simpa using h
    · split at h
      · rcases List.mem_cons.1 h with h | h
        · exact .inl h
        · exact .inr (List.mem_cons_of_mem _ h)
      · rcases List.mem_cons.1 h with h | h
        · exact .inr (h ▸ List.mem_cons_self)
        · rcases ih h with h | h
          · exact .inl h
          · exact .inr (List.mem_cons_of_mem _ h)

/-- The one operation that changes the buffer space byte by byte keeps its canonical form (R30, R40). -/
theorem Memory.write_wf {m : Memory} (hm : Memory.wf m) {a : Nat} (ha : a < 64) (v : Byte) :
    Memory.wf (Memory.write m a v) := by
  obtain ⟨hp, hb⟩ := hm
  refine ⟨?_, fun c hc => ?_⟩
  · clear hb
    induction m with
    | nil => simp [Memory.write]
    | cons d m ih =>
      obtain ⟨hd, hp⟩ := List.pairwise_cons.1 hp
      simp only [Memory.write]
      split
      · rename_i h
        refine List.pairwise_cons.2 ⟨fun c hc => ?_, List.pairwise_cons.2 ⟨hd, hp⟩⟩
        rcases List.mem_cons.1 hc with rfl | hc
        · exact h
        · exact lt_trans h (hd c hc)
      · split
        · rename_i h
          exact List.pairwise_cons.2 ⟨fun c hc => h ▸ hd c hc, hp⟩
        · rename_i h1 h2
          refine List.pairwise_cons.2 ⟨fun c hc => ?_, ih hp⟩
          rcases Memory.mem_write hc with rfl | hc
          · exact lt_of_le_of_ne (not_lt.1 h1) (fun h => h2 h.symm)
          · exact hd c hc
  · rcases Memory.mem_write hc with rfl | hc
    · exact ha
    · exact hb c hc

theorem Memory.nil_wf : Memory.wf [] := by simp [Memory.wf]

/-- Reset leaves the canonical form (R24). -/
theorem reset_mem_wf : Memory.wf State.reset.mem := Memory.nil_wf

/-- A write above every listed address goes to the end. -/
theorem Memory.write_append (m : Memory) (a : Nat) (v : Byte) (h : ∀ c ∈ m, c.1 < a) :
    Memory.write m a v = m ++ [(a, v)] := by
  induction m with
  | nil => rfl
  | cons c m ih =>
    have hc := h c List.mem_cons_self
    rw [Memory.write, if_neg (by omega), if_neg (by omega),
      ih fun d hd => h d (List.mem_cons_of_mem _ hd)]
    rfl

@[simp] theorem cellsOf_nil : cellsOf [] = [] := rfl

theorem cellsOf_append (bytes : List Byte) (v : Byte) :
    cellsOf (bytes ++ [v]) = cellsOf bytes ++ [(bytes.length, v)] := by
  simp only [cellsOf, List.length_append, List.length_singleton, List.range_succ]
  rw [List.zip_append (by simp)]
  rfl

@[simp] theorem cellsOf_addresses (bytes : List Byte) :
    (cellsOf bytes).map (·.1) = List.range bytes.length := by
  simp [cellsOf, List.map_fst_zip]

@[simp] theorem cellsOf_bytes (bytes : List Byte) : (cellsOf bytes).map (·.2) = bytes := by
  simp [cellsOf, List.map_snd_zip]

theorem mem_cellsOf_lt {bytes : List Byte} {c : Host.Cell} (h : c ∈ cellsOf bytes) :
    c.1 < bytes.length := by
  have : c.1 ∈ (cellsOf bytes).map (·.1) := List.mem_map_of_mem h
  simpa using this

/-- R122: the byte written at `BUFLEN` becomes the newest valid byte. -/
theorem write_cellsOf (bytes : List Byte) (v : Byte) :
    Memory.write (cellsOf bytes) bytes.length v = cellsOf (bytes ++ [v]) := by
  rw [Memory.write_append _ _ _ fun c hc => mem_cellsOf_lt hc, cellsOf_append]

theorem Memory.read_append (m : Memory) (c : Host.Cell) (a : Nat) :
    Memory.read (m ++ [c]) a = (Memory.read m a).or (if c.1 = a then some c.2 else none) := by
  induction m with
  | nil => simp [Memory.read]
  | cons d m ih =>
    simp only [List.cons_append, Memory.read]
    split
    · simp
    · exact ih

/-- R12: address `a` holds the valid byte number `a`, and no other address holds one. -/
theorem read_cellsOf (bytes : List Byte) (a : Nat) : (cellsOf bytes).read a = bytes[a]? := by
  induction bytes using List.reverseRecOn with
  | nil => simp [Memory.read]
  | append_singleton bytes v ih =>
    rw [cellsOf_append, Memory.read_append, ih]
    rcases lt_trichotomy a bytes.length with h | h | h
    · rw [List.getElem?_append_left h, if_neg (by simpa using h.ne')]
      simp
    · subst h
      simp
    · have h1 : (bytes ++ [v]).length ≤ a := by simp only [List.length_append, List.length_singleton]; omega
      rw [if_neg h.ne, List.getElem?_eq_none h1, List.getElem?_eq_none (by omega)]
      rfl

theorem cellsOf_wf {bytes : List Byte} (h : bytes.length ≤ 64) : Memory.wf (cellsOf bytes) := by
  refine ⟨?_, fun c hc => lt_of_lt_of_le (mem_cellsOf_lt hc) h⟩
  have : ((cellsOf bytes).map (·.1)).Pairwise (· < ·) := by
    rw [cellsOf_addresses]; exact List.pairwise_lt_range
  exact List.pairwise_map.1 this

/-- R100: the block of a full buffer is its 64 bytes in order. -/
theorem readBlock_cellsOf {bytes : List Byte} (h : bytes.length = 64) :
    Memory.readBlock (cellsOf bytes) = .ok (Reference.blockAt bytes 0) := by
  have hw : ∀ a : Fin 64, ((cellsOf bytes).read a.val).isSome := fun a => by
    rw [read_cellsOf]; simp [h]
  rw [Memory.readBlock, dif_pos hw]
  congr 1
  funext a
  simp only [read_cellsOf, Reference.blockAt]
  simp [List.getD, h]

end Sys2Proof.Machine
end

