-- ==== Sys2Proof/Laws/Reference.lean ====
section
/-! SUPPORT. The small lemmas of the source's formulation: blocks of a sequence, the fold over them, and the
loop of `update`; and the small lemmas of the state that holds a hasher. -/

namespace Sys2Proof.Reference

open Sys2Proof.Machine

/-- A block of what follows the first block is the next block. -/
theorem blockAt_drop (S : List Byte) (k : Nat) : blockAt (S.drop 64) k = blockAt S (k + 1) := by
  funext a
  simp only [blockAt, List.getD_eq_getElem?_getD, List.getElem?_drop]
  congr 2
  omega

/-- Bytes after a block do not change it. -/
theorem blockAt_append {S : List Byte} {k : Nat} (h : 64 * (k + 1) ≤ S.length) (T : List Byte) :
    blockAt (S ++ T) k = blockAt S k := by
  funext a
  simp only [blockAt, List.getD_eq_getElem?_getD]
  rw [List.getElem?_append_left (by omega)]

/-- R106, chaining: compressing the first block and folding over the rest is folding over the whole. -/
theorem foldBlocks_drop (h : Five) (S : List Byte) (m : Nat) :
    foldBlocks (compress h (blockAt S 0)) (S.drop 64) m = foldBlocks h S (m + 1) := by
  induction m with
  | zero => rfl
  | succ m ih => rw [foldBlocks, ih, blockAt_drop]; rfl

/-- Bytes after the folded blocks do not change the fold. -/
theorem foldBlocks_append (h : Five) {S : List Byte} {m : Nat} (hm : 64 * m ≤ S.length) (T : List Byte) :
    foldBlocks h (S ++ T) m = foldBlocks h S m := by
  induction m with
  | zero => rfl
  | succ m ih => rw [foldBlocks, foldBlocks, ih (by omega), blockAt_append hm]

/-- R120, all that the loop does, once it has turns enough. -/
theorem drain_eq (fuel : Nat) (c : Hasher) (hf : c.buf.length / 64 ≤ fuel) :
    drain fuel c = { c with h := foldBlocks c.h c.buf (c.buf.length / 64),
                            buf := c.buf.drop (64 * (c.buf.length / 64)) } := by
  induction fuel generalizing c with
  | zero =>
    have h0 : c.buf.length / 64 = 0 := by omega
    simp [drain, h0, foldBlocks]
  | succ fuel ih =>
    rw [drain]
    split
    · rename_i h
      have hd : c.buf.length / 64 = (c.buf.length - 64) / 64 + 1 := by omega
      rw [ih _ (by simp; omega)]
      simp only [List.length_drop, List.drop_drop, foldBlocks_drop]
      rw [← hd, show 64 + 64 * ((c.buf.length - 64) / 64) = 64 * (c.buf.length / 64) by omega]
    · have h0 : c.buf.length / 64 = 0 := by omega
      simp [h0, foldBlocks]

@[simp] theorem holding_h (c : Hasher) (s : State) : (holding c s).h = c.h := rfl
@[simp] theorem holding_mem (c : Hasher) (s : State) : (holding c s).mem = cellsOf c.buf := rfl
@[simp] theorem holding_bufLen (c : Hasher) (s : State) :
    (holding c s).bufLen = BitVec.ofNat 6 c.buf.length := rfl
@[simp] theorem holding_len (c : Hasher) (s : State) : (holding c s).len = c.len := rfl
@[simp] theorem holding_phase (c : Hasher) (s : State) : (holding c s).phase = s.phase := rfl
@[simp] theorem holding_cmdIn (c : Hasher) (s : State) : (holding c s).cmdIn = s.cmdIn := rfl
@[simp] theorem holding_respOut (c : Hasher) (s : State) : (holding c s).respOut = s.respOut := rfl
@[simp] theorem bufferOf_holding (c : Hasher) (s : State) : bufferOf (holding c s) = c.buf := by
  simp [bufferOf]

/-- R52, R131: the padded length is a multiple of 64. -/
theorem padding_length (scale n : Nat) : (padding scale n).length = 9 + zeroCount n := by
  simp [padding, storeLe64]
  omega

end Sys2Proof.Reference
end

