-- ==== Sys2Proof/Laws/State.lean ====
section
/-! SUPPORT. One lemma per field per update of State: the response, the consumed command, the initial
lifecycle state, the lifecycle flag. -/

namespace Sys2Proof.Machine

@[simp] theorem respond_h (st : Status) (p : List Byte) (s : State) : (respond st p s).h = s.h := rfl
@[simp] theorem respond_mem (st : Status) (p : List Byte) (s : State) : (respond st p s).mem = s.mem := rfl
@[simp] theorem respond_bufLen (st : Status) (p : List Byte) (s : State) :
    (respond st p s).bufLen = s.bufLen := rfl
@[simp] theorem respond_len (st : Status) (p : List Byte) (s : State) : (respond st p s).len = s.len := rfl
@[simp] theorem respond_phase (st : Status) (p : List Byte) (s : State) :
    (respond st p s).phase = s.phase := rfl
@[simp] theorem respond_cmdIn (st : Status) (p : List Byte) (s : State) :
    (respond st p s).cmdIn = s.cmdIn := rfl
@[simp] theorem respond_respOut (st : Status) (p : List Byte) (s : State) :
    (respond st p s).respOut = s.respOut ++ responseBytes st p := rfl

@[simp] theorem consume_h (r : List Byte) (s : State) : (consume r s).h = s.h := rfl
@[simp] theorem consume_mem (r : List Byte) (s : State) : (consume r s).mem = s.mem := rfl
@[simp] theorem consume_bufLen (r : List Byte) (s : State) : (consume r s).bufLen = s.bufLen := rfl
@[simp] theorem consume_len (r : List Byte) (s : State) : (consume r s).len = s.len := rfl
@[simp] theorem consume_phase (r : List Byte) (s : State) : (consume r s).phase = s.phase := rfl
@[simp] theorem consume_cmdIn (r : List Byte) (s : State) : (consume r s).cmdIn = r := rfl
@[simp] theorem consume_respOut (r : List Byte) (s : State) : (consume r s).respOut = s.respOut := rfl

@[simp] theorem initialise_h (s : State) : (initialise s).h = iv := rfl
@[simp] theorem initialise_mem (s : State) : (initialise s).mem = [] := rfl
@[simp] theorem initialise_bufLen (s : State) : (initialise s).bufLen = 0 := rfl
@[simp] theorem initialise_len (s : State) : (initialise s).len = 0 := rfl
@[simp] theorem initialise_phase (s : State) : (initialise s).phase = .active := rfl
@[simp] theorem initialise_cmdIn (s : State) : (initialise s).cmdIn = s.cmdIn := rfl
@[simp] theorem initialise_respOut (s : State) : (initialise s).respOut = s.respOut := rfl

@[simp] theorem setFinalized_h (s : State) : (setFinalized s).h = s.h := rfl
@[simp] theorem setFinalized_mem (s : State) : (setFinalized s).mem = s.mem := rfl
@[simp] theorem setFinalized_bufLen (s : State) : (setFinalized s).bufLen = s.bufLen := rfl
@[simp] theorem setFinalized_len (s : State) : (setFinalized s).len = s.len := rfl
@[simp] theorem setFinalized_phase (s : State) : (setFinalized s).phase = .finalized := rfl
@[simp] theorem setFinalized_cmdIn (s : State) : (setFinalized s).cmdIn = s.cmdIn := rfl
@[simp] theorem setFinalized_respOut (s : State) : (setFinalized s).respOut = s.respOut := rfl

@[simp] theorem outcome_ok (s : State) : outcome (.ok s) = .next s := rfl
@[simp] theorem outcome_error (f : Fault) : outcome (.error f) = .fault f := rfl

/-- R164: taking an exception changes the response stream only. -/
theorem raise_eq (e : Exception) (s : State) :
    raise e s = .next { s with respOut := s.respOut ++ responseBytes e.status [] } := rfl

/-- R60: a fault's response is its code with `M = 0`. -/
theorem responseBytes_exception (e : Exception) : responseBytes e.status [] = [e.status.code, 0, 0, 0] := by
  cases e <;> decide

theorem lifecycleOk_iff (s : State) : lifecycleOk s = true ↔ s.phase = .active := by
  cases h : s.phase <;> simp [lifecycleOk, h]

end Sys2Proof.Machine
end

