-- ==== Sys2Proof/Laws/Streaming.lean ====
section
/-! SUPPORT. What the invariant says of the buffer, and all that `absorb` can do: one lemma that gives its
next state, and the shape of the states that `update` and the zero fill reach. -/

namespace Sys2Proof.Machine

theorem Inv.length_buffer {s : State} (hs : Inv s) : (bufferOf s).length = s.bufLen.toNat := by
  have := congrArg List.length hs.valid
  simpa [bufferOf] using this

/-- Under the invariant the buffer space is given by the buffer's bytes. -/
theorem Inv.mem_eq {s : State} (hs : Inv s) : s.mem = cellsOf (bufferOf s) := by
  rw [cellsOf, hs.length_buffer, ← hs.valid, bufferOf, List.zip_map']
  simp

theorem Inv.mem_wf {s : State} (hs : Inv s) : Memory.wf s.mem := by
  rw [hs.mem_eq]
  exact cellsOf_wf (by rw [hs.length_buffer]; have := s.bufLen.isLt; omega)

/-- R122, all of `absorb` under the invariant: the byte is buffered, or completes the block, which is
compressed and the buffer emptied. -/
theorem absorb_eq {s : State} (hs : Inv s) (v : Byte) :
    absorb s v = .ok (if s.bufLen = 63 then
        { s with h := compress s.h (Reference.blockAt (bufferOf s ++ [v]) 0), mem := [], bufLen := 0,
                 len := s.len + 1 }
      else { s with mem := cellsOf (bufferOf s ++ [v]), bufLen := s.bufLen + 1, len := s.len + 1 }) := by
  have hw : Memory.write s.mem s.bufLen.toNat v = cellsOf (bufferOf s ++ [v]) := by
    rw [hs.mem_eq, ← hs.length_buffer, write_cellsOf]
  simp only [absorb, hw]
  split
  · rename_i h
    rw [readBlock_cellsOf (by simp [hs.length_buffer, h])]
    rfl
  · rfl

/-- The increment of the 6-bit `BUFLEN`, as a number. -/
theorem bufLen_succ (b : BitVec 6) : (b + 1).toNat = (b.toNat + 1) % 64 := by
  rw [BitVec.toNat_add]; rfl

/-- The increment of the 64-bit `LEN`, as a number (R77). -/
theorem len_succ (l : BitVec 64) : (l + 1).toNat = (l.toNat + 1) % 2 ^ 64 := by
  rw [BitVec.toNat_add]; rfl

/-- How many zero bytes are still missing from a buffer length, on the way up to 56 modulo 64. -/
theorem missing_toNat (b : BitVec 6) : (56 - b).toNat = (120 - b.toNat) % 64 := by
  have := b.isLt
  rw [BitVec.toNat_sub]
  have : (56 : BitVec 6).toNat = 56 := rfl
  omega

theorem except_bind_eq_ok {ε α β : Type} {x : Except ε α} {f : α → Except ε β} {r : β}
    (h : x >>= f = .ok r) : ∃ a, x = .ok a ∧ f a = .ok r := by
  cases x with
  | error e => cases h
  | ok a => exact ⟨a, rfl, h⟩

theorem except_map_eq_ok {ε α β : Type} {x : Except ε α} {f : α → β} {r : β}
    (h : x.map f = .ok r) : ∃ a, x = .ok a ∧ f a = r := by
  cases x with
  | error e => cases h
  | ok a => exact ⟨a, rfl, Except.ok.inj h⟩

/-- What `absorb` leaves alone, whatever the state: the phase and both streams. -/
theorem absorb_frame {s t : State} {v : Byte} (h : absorb s v = .ok t) :
    t.phase = s.phase ∧ t.cmdIn = s.cmdIn ∧ t.respOut = s.respOut ∧ t.len = s.len + 1 ∧
      t.bufLen = s.bufLen + 1 := by
  simp only [absorb] at h
  split at h
  · rename_i hb
    obtain ⟨B, -, rfl⟩ := except_map_eq_ok h
    simp [hb]
  · obtain rfl := Except.ok.inj h
    simp

/-- `absorb` keeps the invariant of an open computation. -/
theorem absorb_inv {s t : State} {v : Byte} (hs : Inv s) (ha : s.phase = .active)
    (h : absorb s v = .ok t) : Inv t ∧ t.phase = .active := by
  obtain ⟨hp, -, -, hl, hb⟩ := absorb_frame h
  rw [absorb_eq hs, Except.ok.injEq] at h
  have hlen := hs.length_buffer
  have hres := hs.residue
  have hlt := s.bufLen.isLt
  refine ⟨⟨?_, ?_, fun hf => absurd hf (by simp [hp, ha])⟩, hp.trans ha⟩
  · rw [hb, bufLen_succ]
    subst h
    split
    · rename_i h63
      simp [h63]
    · rename_i hne
      have : s.bufLen.toNat ≠ 63 := fun he => hne (BitVec.eq_of_toNat_eq he)
      rw [Nat.mod_eq_of_lt (by omega)]
      simp [hlen]
  · rw [hb, hl, bufLen_succ, len_succ]
    omega

/-- An open computation under the invariant takes any bytes (R169), and stays one. -/
theorem update_ok (data : List Byte) {s : State} (hs : Inv s) (ha : s.phase = .active) :
    ∃ t, update data s = .ok t ∧ Inv t ∧ t.phase = .active := by
  induction data generalizing s with
  | nil => exact ⟨s, rfl, hs, ha⟩
  | cons v data ih =>
    have hv := absorb_eq hs v
    obtain ⟨ht, hta⟩ := absorb_inv hs ha hv
    obtain ⟨u, hu, hi, hua⟩ := ih ht hta
    refine ⟨u, ?_, hi, hua⟩
    simp only [update, List.foldlM_cons, hv]
    exact hu

/-- R123 at the level of the operation: feeding two sequences is feeding their concatenation. -/
theorem update_append (d1 d2 : List Byte) (s : State) :
    update (d1 ++ d2) s = update d1 s >>= update d2 := by
  simp only [update, List.foldlM_append]
  rfl

/-- What `update` leaves alone, whatever the state. -/
theorem update_frame {data : List Byte} {s t : State} (h : update data s = .ok t) :
    t.phase = s.phase ∧ t.cmdIn = s.cmdIn ∧ t.respOut = s.respOut := by
  induction data generalizing s with
  | nil => obtain rfl := Except.ok.inj h; simp
  | cons v data ih =>
    simp only [update, List.foldlM_cons] at h
    obtain ⟨u, hu, h⟩ := except_bind_eq_ok h
    obtain ⟨hp, hc, hr, -, -⟩ := absorb_frame hu
    obtain ⟨hp', hc', hr'⟩ := ih h
    exact ⟨hp'.trans hp, hc'.trans hc, hr'.trans hr⟩

/-- The zero fill takes place under the invariant, and stays within an open computation. -/
theorem zeroFill_ok (fuel : Nat) {s : State} (hs : Inv s) (ha : s.phase = .active) :
    ∃ t, zeroFill fuel s = .ok t ∧ Inv t ∧ t.phase = .active := by
  induction fuel generalizing s with
  | zero => exact ⟨s, rfl, hs, ha⟩
  | succ fuel ih =>
    simp only [zeroFill]
    split
    · exact ⟨s, rfl, hs, ha⟩
    · have hv := absorb_eq hs 0
      obtain ⟨ht, hta⟩ := absorb_inv hs ha hv
      obtain ⟨u, hu, hi, hua⟩ := ih ht hta
      exact ⟨u, by rw [hv]; exact hu, hi, hua⟩

/-- What the zero fill leaves alone, whatever the state. -/
theorem zeroFill_frame {fuel : Nat} {s t : State} (h : zeroFill fuel s = .ok t) :
    t.phase = s.phase ∧ t.cmdIn = s.cmdIn ∧ t.respOut = s.respOut := by
  induction fuel generalizing s with
  | zero => obtain rfl := Except.ok.inj h; simp
  | succ fuel ih =>
    simp only [zeroFill] at h
    split at h
    · obtain rfl := Except.ok.inj h; simp
    · obtain ⟨u, hu, h⟩ := except_bind_eq_ok h
      obtain ⟨hp, hc, hr, -, -⟩ := absorb_frame hu
      obtain ⟨hp', hc', hr'⟩ := ih h
      exact ⟨hp'.trans hp, hc'.trans hc, hr'.trans hr⟩

/-- R131, notes/assumptions/15.md: 64 turns reach `BUFLEN = 56` from every state. -/
theorem zeroFill_reaches {fuel : Nat} {s t : State} (h : zeroFill fuel s = .ok t)
    (hf : (56 - s.bufLen).toNat ≤ fuel) : t.bufLen = 56 := by
  rw [missing_toNat] at hf
  induction fuel generalizing s with
  | zero =>
    obtain rfl := Except.ok.inj h
    have := s.bufLen.isLt
    apply BitVec.eq_of_toNat_eq
    have : (56 : BitVec 6).toNat = 56 := rfl
    omega
  | succ fuel ih =>
    simp only [zeroFill] at h
    split at h
    · rename_i hb
      obtain rfl := Except.ok.inj h
      exact hb
    · rename_i hb
      obtain ⟨u, hu, h⟩ := except_bind_eq_ok h
      refine ih h ?_
      have hne : s.bufLen.toNat ≠ 56 := fun he => hb (BitVec.eq_of_toNat_eq he)
      have := s.bufLen.isLt
      rw [(absorb_frame hu).2.2.2.2, bufLen_succ]
      omega

theorem initialise_inv (s : State) : Inv (initialise s) :=
  ⟨by simp, by simp, by simp⟩

end Sys2Proof.Machine
end

