-- ==== Sys2Proof/Laws/Hasher.lean ====
section
/-! SUPPORT. The source's hasher and the machine that holds it: `update` in closed form, what the byte-serial
operations do on a state that holds a hasher, what the operations do on other streams, and runs. -/

namespace Sys2Proof.Reference

open Sys2Proof.Machine

/-- R120 in closed form: the whole blocks folded, the rest kept. -/
theorem Hasher.update_eq (c : Hasher) (data : List Byte) :
    c.update data =
      ⟨foldBlocks c.h (c.buf ++ data) ((c.buf ++ data).length / 64),
        (c.buf ++ data).drop (64 * ((c.buf ++ data).length / 64)), c.len + BitVec.ofNat 64 data.length⟩ := by
  rw [Hasher.update, drain_eq _ _ (by simp; omega)]

/-- R22 (b) is kept by `update`. -/
theorem Hasher.update_residue {c : Hasher} (hr : c.buf.length = c.len.toNat % 64) (data : List Byte) :
    (c.update data).buf.length = (c.update data).len.toNat % 64 := by
  rw [Hasher.update_eq]
  simp
  omega

theorem Hasher.update_buf_lt (c : Hasher) (data : List Byte) : (c.update data).buf.length < 64 := by
  rw [Hasher.update_eq]
  simp
  omega

theorem Hasher.update_nil {c : Hasher} (hl : c.buf.length < 64) : c.update [] = c := by
  have h0 : c.buf.length / 64 = 0 := by omega
  simp [Hasher.update_eq, h0, foldBlocks]

/-- R123 of the source's loop. -/
theorem Hasher.update_append (c : Hasher) (d e : List Byte) :
    (c.update d).update e = c.update (d ++ e) := by
  simp only [Hasher.update_eq, ← List.append_assoc]
  generalize c.buf ++ d = S
  have hm : 64 * (S.length / 64) ≤ S.length := by omega
  have key : ∀ m, foldBlocks (foldBlocks c.h S (S.length / 64)) (S.drop (64 * (S.length / 64)) ++ e) m =
      foldBlocks c.h (S ++ e) (S.length / 64 + m) := by
    intro m
    induction m with
    | zero => simp [foldBlocks, foldBlocks_append _ hm]
    | succ m ih =>
      rw [foldBlocks, ih, ← Nat.add_assoc, foldBlocks, ← List.drop_append_of_le_length hm]
      congr 1
      funext a
      simp only [blockAt, List.getD_eq_getElem?_getD, List.getElem?_drop]
      congr 2
      omega
  rw [key]
  simp only [Hasher.mk.injEq]
  refine ⟨?_, ?_, ?_⟩
  · congr 1
    simp
    omega
  · rw [← List.drop_append_of_le_length hm, List.drop_drop]
    congr 1
    simp
    omega
  · rw [List.length_append, BitVec.add_assoc, BitVec.ofNat_add]

/-- The zero fill is an `update` of as many zero bytes as are missing up to 56 modulo 64 (R131). -/
theorem Hasher.zeroFill_eq {c : Hasher} (hr : c.buf.length = c.len.toNat % 64) {fuel : Nat}
    (hf : (120 - c.buf.length) % 64 ≤ fuel) :
    c.zeroFill fuel = c.update (List.replicate ((120 - c.buf.length) % 64) 0) := by
  generalize hk : (120 - c.buf.length) % 64 = k at hf ⊢
  induction k generalizing c fuel with
  | zero =>
    rw [List.replicate_zero, Hasher.update_nil (by omega)]
    cases fuel with
    | zero => rfl
    | succ n => rw [Hasher.zeroFill, if_pos (by omega)]
  | succ k ih =>
    obtain ⟨n, rfl⟩ : ∃ n, fuel = n + 1 := ⟨fuel - 1, by omega⟩
    have hb : (c.update [0]).buf.length = (c.buf.length + 1) % 64 := by
      rw [Hasher.update_eq]
      simp
      omega
    rw [Hasher.zeroFill, if_neg (by omega), ih (c.update_residue hr [0]) (by omega) (by omega),
      Hasher.update_append]
    rfl

/-- R130 with R52: the six steps feed the padding. -/
theorem Hasher.finalize_eq {c : Hasher} (hr : c.buf.length = c.len.toNat % 64) (scale : Nat) :
    c.finalize scale = c.update (padding scale c.len.toNat) := by
  have hb : (c.update [0x80]).buf.length = (c.buf.length + 1) % 64 := by
    rw [Hasher.update_eq]
    simp
    omega
  have hz : (120 - (c.update [0x80]).buf.length) % 64 = zeroCount c.len.toNat := by
    rw [hb, zeroCount]
    omega
  rw [Hasher.finalize, Hasher.zeroFill_eq (Hasher.update_residue hr _) (by omega), hz,
    Hasher.update_append, Hasher.update_append]
  rfl

theorem Hasher.zeroFill_residue (fuel : Nat) {c : Hasher} (hr : c.buf.length = c.len.toNat % 64) :
    (c.zeroFill fuel).buf.length = (c.zeroFill fuel).len.toNat % 64 := by
  induction fuel generalizing c with
  | zero => exact hr
  | succ n ih =>
    rw [Hasher.zeroFill]
    split
    · exact hr
    · exact ih (c.update_residue hr [0])

/-! ### The state that holds a hasher -/

/-- A state under the invariant is the one that holds its hasher. -/
theorem holding_hasherOf {s : State} (hs : Inv s) : holding (hasherOf s) s = s := by
  have h1 := hs.mem_eq
  have h2 := hs.length_buffer
  cases s
  simp only [holding, hasherOf, State.mk.injEq, true_and, and_true]
  refine ⟨h1.symm, ?_⟩
  rw [h2]
  simp

theorem hasherOf_holding (c : Hasher) (s : State) : hasherOf (holding c s) = c := by
  simp [hasherOf]

theorem hasherOf_residue {s : State} (hs : Inv s) :
    (hasherOf s).buf.length = (hasherOf s).len.toNat % 64 := by
  simpa [hasherOf, hs.length_buffer] using hs.residue

theorem holding_inv {c : Hasher} {s : State} (hr : c.buf.length = c.len.toNat % 64)
    (ha : s.phase = .active) : Inv (holding c s) := by
  have hl : c.buf.length < 64 := by omega
  refine ⟨?_, ?_, ?_⟩
  · simp [Nat.mod_eq_of_lt hl]
  · simp [hr]
  · simp [ha]

/-- The invariant does not look at the streams. -/
theorem inv_withStreams {s : State} (hs : Inv s) (inB outB : List Byte) :
    Inv { s with cmdIn := inB, respOut := outB } := ⟨hs.valid, hs.residue, hs.drained⟩

/-- R122 against R120, one byte. -/
theorem absorb_holding {c : Hasher} {s : State} (hr : c.buf.length = c.len.toNat % 64)
    (ha : s.phase = .active) (v : Byte) :
    absorb (holding c s) v = .ok (holding (c.update [v]) s) := by
  have hl : c.buf.length < 64 := by omega
  rw [absorb_eq (holding_inv hr ha), Hasher.update_eq]
  have hb : (BitVec.ofNat 6 c.buf.length = 63) ↔ c.buf.length = 63 := by
    rw [← BitVec.toNat_inj]
    simp [Nat.mod_eq_of_lt hl]
  simp only [bufferOf_holding, holding_bufLen, hb, List.length_append, List.length_singleton]
  split
  · rename_i h
    have : (c.buf ++ [v]).drop 64 = [] := List.drop_eq_nil_of_le (by simp; omega)
    simp [h, foldBlocks, holding, this]
  · rename_i h
    have h0 : (c.buf.length + 1) / 64 = 0 := by omega
    simp [h0, foldBlocks, holding]
    apply BitVec.eq_of_toNat_eq
    rw [BitVec.toNat_add]
    simp

/-- R122 against R120, a payload. -/
theorem update_holding (data : List Byte) {c : Hasher} {s : State}
    (hr : c.buf.length = c.len.toNat % 64) (ha : s.phase = .active) :
    update data (holding c s) = .ok (holding (c.update data) s) := by
  induction data generalizing c with
  | nil =>
    rw [Hasher.update_nil (by omega)]
    rfl
  | cons v d ih =>
    have := ih (c.update_residue hr [v])
    rw [Hasher.update_append] at this
    simp only [update, List.foldlM_cons, absorb_holding hr ha]
    exact this

/-- The machine's zero fill is the source's. -/
theorem zeroFill_holding (fuel : Nat) {c : Hasher} {s : State}
    (hr : c.buf.length = c.len.toNat % 64) (ha : s.phase = .active) :
    zeroFill fuel (holding c s) = .ok (holding (c.zeroFill fuel) s) := by
  induction fuel generalizing c with
  | zero => rfl
  | succ n ih =>
    rw [zeroFill, Hasher.zeroFill]
    have hb : (BitVec.ofNat 6 c.buf.length = padResidue) ↔ c.buf.length = 56 := by
      rw [← BitVec.toNat_inj]
      have hl : c.buf.length < 64 := by omega
      simp [Nat.mod_eq_of_lt hl, padResidue]
    simp only [holding_bufLen, hb]
    split
    · rfl
    · rw [absorb_holding hr ha]
      exact ih (c.update_residue hr [0])

/-- The machine's padding is the source's steps 1 to 4. -/
theorem pad_holding {c : Hasher} {s : State} (hr : c.buf.length = c.len.toNat % 64)
    (ha : s.phase = .active) : pad (holding c s) = .ok (holding (c.finalize lenScale) s) := by
  have h1 := c.update_residue hr [padMark]
  simp only [pad, padWith, update_holding _ hr ha, bind, Except.bind, zeroFill_holding 64 h1 ha,
    update_holding _ (Hasher.zeroFill_residue 64 h1) ha]
  rfl

end Sys2Proof.Reference

namespace Sys2Proof.Machine

/-! ### Other streams, padding, and runs -/

theorem absorb_withStreams (s : State) (v : Byte) (inB outB : List Byte) :
    absorb { s with cmdIn := inB, respOut := outB } v =
      (absorb s v).map fun t => { t with cmdIn := inB, respOut := outB } := by
  simp only [absorb]
  split
  · cases Memory.readBlock (Memory.write s.mem s.bufLen.toNat v) <;> rfl
  · rfl

theorem update_withStreams (data : List Byte) (s : State) (inB outB : List Byte) :
    update data { s with cmdIn := inB, respOut := outB } =
      (update data s).map fun t => { t with cmdIn := inB, respOut := outB } := by
  induction data generalizing s with
  | nil => rfl
  | cons v d ih =>
    simp only [update, List.foldlM_cons, absorb_withStreams]
    cases absorb s v with
    | error e => rfl
    | ok t => exact ih t

theorem zeroFill_withStreams (fuel : Nat) (s : State) (inB outB : List Byte) :
    zeroFill fuel { s with cmdIn := inB, respOut := outB } =
      (zeroFill fuel s).map fun t => { t with cmdIn := inB, respOut := outB } := by
  induction fuel generalizing s with
  | zero => rfl
  | succ n ih =>
    simp only [zeroFill]
    split
    · rfl
    · rw [absorb_withStreams]
      cases absorb s 0 with
      | error e => rfl
      | ok t => exact ih t

theorem pad_withStreams (s : State) (inB outB : List Byte) :
    pad { s with cmdIn := inB, respOut := outB } =
      (pad s).map fun t => { t with cmdIn := inB, respOut := outB } := by
  simp only [pad, padWith, update_withStreams]
  cases update [padMark] s with
  | error e => rfl
  | ok t =>
    simp only [Except.map, bind, Except.bind, zeroFill_withStreams]
    cases zeroFill 64 t with
    | error e => rfl
    | ok u => exact update_withStreams _ u inB outB

/-- What the padding leaves alone, whatever the state. -/
theorem pad_frame {s t : State} (h : pad s = .ok t) :
    t.phase = s.phase ∧ t.cmdIn = s.cmdIn ∧ t.respOut = s.respOut := by
  simp only [pad, padWith] at h
  obtain ⟨u, hu, h⟩ := except_bind_eq_ok h
  obtain ⟨v, hv, h⟩ := except_bind_eq_ok h
  have h1 := update_frame hu
  have h2 := zeroFill_frame hv
  have h3 := update_frame h
  exact ⟨h3.1.trans (h2.1.trans h1.1), h3.2.1.trans (h2.2.1.trans h1.2.1),
    h3.2.2.trans (h2.2.2.trans h1.2.2)⟩

/-- R125, at the level of the operation: `LEN` advances by the payload's length, modulo 2^64. -/
theorem update_len {data : List Byte} {s t : State} (h : update data s = .ok t) :
    t.len = s.len + BitVec.ofNat 64 data.length := by
  induction data generalizing s with
  | nil =>
    obtain rfl := Except.ok.inj h
    simp
  | cons v d ih =>
    simp only [update, List.foldlM_cons] at h
    obtain ⟨u, hu, h⟩ := except_bind_eq_ok h
    rw [ih h, (absorb_frame hu).2.2.2.1, List.length_cons, BitVec.ofNat_add, BitVec.add_assoc,
      BitVec.add_comm 1]
    rfl

/-- No meaning refuses. -/
theorem exec_ne_refused (i : Instr) (s : State) (r : Refusal) : exec i s ≠ .refused r := by
  cases i <;> simp only [exec, execReset, execUpdate, execFinalize, execTohex, execHash] <;> intro h
  · cases h
  · split at h
    · generalize (update _ s).map _ = x at h
      cases x <;> cases h
    · cases h
  · split at h
    · generalize (finish s).map _ = x at h
      cases x <;> cases h
    · cases h
  · split at h <;> cases h
  · generalize Except.map _ _ = x at h
    cases x <;> cases h

/-- One more step of a run. -/
theorem run_succ (k : Nat) (s : State) :
    Host.Core.run core (k + 1) s =
      match step s with
      | .next t => Host.Core.run core k t
      | .fault f => .fault f
      | .refused r => .refused r := by
  cases h : step s <;> simp [Host.Core.run, core, h]

/-- A sequence of commands in two parts. -/
theorem execAll_append (is js : List Instr) (s : State) :
    execAll (is ++ js) s =
      match execAll is s with
      | .next t => execAll js t
      | .fault f => .fault f
      | .refused r => .refused r := by
  induction is generalizing s with
  | nil => rfl
  | cons i is ih =>
    rw [List.cons_append, execAll, execAll]
    cases exec i s with
    | next t => exact ih t
    | fault f => rfl
    | refused r => rfl

end Sys2Proof.Machine
end

