-- ==== Sys2Proof/Laws/PerInstr.lean ====
section
/-! SUPPORT. Statements about every command as syntax, one lemma per constructor. -/

namespace Sys2Proof.Laws.FramedLength

/-- R55: the encoding of a command is 4 bytes and its payload, and a well-formed command's payload fits the
24-bit count. -/
def Statement (i : Instr) : Prop :=
  (encode i).length = 4 + i.payload.length ∧ (i.wf = true → i.payload.length ≤ Config.nMax)

theorem encode_length (i : Instr) : (encode i).length = 4 + i.payload.length := by
  simp [encode, Machine.wordBytes]
  omega

theorem reset : Statement .reset := ⟨encode_length _, fun _ => by simp [Instr.payload]⟩

theorem update (data : List Byte) : Statement (.update data) :=
  ⟨encode_length _, fun h => by simpa [Instr.wf, Instr.payload] using h⟩

theorem finalize : Statement .finalize := ⟨encode_length _, fun _ => by simp [Instr.payload]⟩

theorem tohex (dg : List Byte) : Statement (.tohex dg) :=
  ⟨encode_length _, fun h => by
    have : dg.length = 20 := by simpa [Instr.wf, Config.digestBytes] using h
    simp [Instr.payload, this, Config.nMax]⟩

theorem hash (data : List Byte) : Statement (.hash data) :=
  ⟨encode_length _, fun h => by simpa [Instr.wf, Instr.payload] using h⟩

end Sys2Proof.Laws.FramedLength
end

