-- ==== Sys2Proof/Tests/Slice0.lean ====
section
/-! SUPPORT. The model's own tests. Expected results are the spec's: its encodings (spec/30_encoding.md) and its
vectors (spec/95_test_vectors.md). After them, for every obligation with hypotheses, one witness: concrete
states and operands that meet all of them together. -/

namespace Sys2Proof.Tests

open Sys2Proof.Machine Sys2Proof.Reference

/-- The next state of a step, if there is one. -/
def after : Host.Outcome State Fault Refusal → Option State
  | .next s => some s
  | .fault _ => none
  | .refused _ => none

/-- An instance `phase`d so, that holds `buf` and has been fed `len` bytes. -/
def holds (phase : Phase) (buf : List Byte) (len : BitVec 64) : State :=
  { holding ⟨iv, buf, len⟩ State.reset with phase := phase }

/-- An open computation with `n` buffered bytes 0x61 and nothing compressed. -/
def openWith (n : Nat) : State := holds .active (List.replicate n 0x61) (BitVec.ofNat 64 n)

/-- An instance after a finalize of a short message. -/
def done : State := holds .finalized [] 64

/-- The state with these bytes on its command stream. -/
def fed (s : State) (bytes : List Byte) : State := { s with cmdIn := bytes }

/-! ### WellFormed: an ill-formed term for each check, refused -/

/-- R57: `TOHEX` takes exactly 20 bytes. -/
theorem test_wf_tohex : (Instr.tohex (List.replicate 19 0)).wf = false ∧
    (Instr.tohex (List.replicate 21 0)).wf = false ∧ (Instr.tohex (List.replicate 20 0)).wf = true := by decide

/-- R57, D4: `UPDATE` takes at most 2^24 - 1 bytes. -/
theorem test_wf_update : (Instr.update (List.replicate (2 ^ 24) 0)).wf = false ∧
    (Instr.update (List.replicate (2 ^ 24 - 1) 0)).wf = true := by
  simp only [Instr.wf, List.length_replicate]
  decide

/-- R57, D4: and so does `HASH`. -/
theorem test_wf_hash : (Instr.hash (List.replicate (2 ^ 24) 0)).wf = false ∧
    (Instr.hash (List.replicate (2 ^ 24 - 1) 0)).wf = true := by
  simp only [Instr.wf, List.length_replicate]
  decide

/-! ### Decode: words written out from R56 and R57, `OPC` first, then `N` least significant byte first -/

/-- R62: `RESET` is `01 00 00 00`. -/
theorem test_decode_reset : decode [0x01, 0x00, 0x00, 0x00] = .command .reset [] := by decide

/-- R62: `UPDATE "abc"` is `02 03 00 00 61 62 63`. -/
theorem test_decode_update :
    decode [0x02, 0x03, 0x00, 0x00, 0x61, 0x62, 0x63] = .command (.update [0x61, 0x62, 0x63]) [] := by decide

/-- R62: `FINALIZE` is `03 00 00 00`; the byte after it is the next command's. -/
theorem test_decode_finalize : decode [0x03, 0x00, 0x00, 0x00, 0x05] = .command .finalize [0x05] := by decide

/-- R57: `TOHEX` is `04 14 00 00` and 20 bytes. -/
theorem test_decode_tohex : decode ([0x04, 0x14, 0x00, 0x00] ++ List.replicate 20 0x9C) =
    .command (.tohex (List.replicate 20 0x9C)) [] := by decide

/-- R62: `HASH ""` is `05 00 00 00`. -/
theorem test_decode_hash : decode [0x05, 0x00, 0x00, 0x00] = .command (.hash []) [] := by decide

/-- R59 (a): the all-zero word, and opcodes 0x06 and 0xFF whose payload is framed by `N`. -/
theorem test_decode_reserved : decode [0x00, 0x00, 0x00, 0x00] = .illegal (.reservedOpcode 0x00) [] ∧
    decode [0x06, 0x02, 0x00, 0x00, 0xAA, 0xBB, 0x01] = .illegal (.reservedOpcode 0x06) [0x01] ∧
    decode [0xFF, 0x00, 0x00, 0x00] = .illegal (.reservedOpcode 0xFF) [] := by decide

/-- R59 (b): `RESET` and `FINALIZE` with a payload, `TOHEX` with 19 bytes. -/
theorem test_decode_count : decode [0x01, 0x01, 0x00, 0x00, 0xAA] = .illegal (.forbiddenCount 0x01 1) [] ∧
    decode [0x03, 0x01, 0x00, 0x00, 0xAA] = .illegal (.forbiddenCount 0x03 1) [] ∧
    decode ([0x04, 0x13, 0x00, 0x00] ++ List.replicate 19 0) = .illegal (.forbiddenCount 0x04 19) [] := by decide

/-- R55: three bytes are no command word, and `N` = 0x010000 (byte 3) announces 65536 bytes. -/
theorem test_decode_incomplete : decode [0x01, 0x00, 0x00] = .incomplete ∧
    decode [0x02, 0x03, 0x00, 0x00, 0x61, 0x62] = .incomplete ∧
    decode [0x02, 0x00, 0x00, 0x01, 0x61] = .incomplete := by decide

/-- R57: no command word is covered by two rows of the opcode map. -/
theorem test_rows_disjoint : opcodeRows.Pairwise fun r t =>
    r.pattern &&& (r.mask &&& t.mask) ≠ t.pattern &&& (r.mask &&& t.mask) := by decide

/-- R56, R57: the encoder, the low byte of `N` first. -/
theorem test_encode : encode .reset = [0x01, 0x00, 0x00, 0x00] ∧
    encode (.update [0x61, 0x62, 0x63]) = [0x02, 0x03, 0x00, 0x00, 0x61, 0x62, 0x63] ∧
    (encode (.hash (List.replicate 258 0))).take 4 = [0x05, 0x02, 0x01, 0x00] := by decide +kernel

/-- opcode_table.json numbers the bits of the command word; an operand word it leaves out is zero. -/
theorem test_table_words : decodeTableWord 32 0x00000001 = some .reset ∧
    decodeTableWord 32 0x00000202 = some (.update [0, 0]) ∧ decodeTableWord 32 0x00000003 = some .finalize ∧
    decodeTableWord 32 0x00001404 = some (.tohex (List.replicate 20 0)) ∧
    decodeTableWord 32 0x00000005 = some (.hash []) ∧ decodeTableWord 32 0x00000101 = none := by decide

/-- `withFetchWord` puts the command where the next step takes it: `TOHEX` of zero bytes answers forty `0`. -/
theorem test_fetch_word : (after (step (State.reset.withFetchWord 32 0x1404))).map (·.respOut) =
    some ([0x00, 0x28, 0x00, 0x00] ++ List.replicate 40 0x30) := by decide

/-! ### Assembler (R62, R63) -/

/-- R62: `UPDATE "abc"`, with a comment; a repetition and a hex byte in one list. -/
theorem test_assemble_bytes :
    assembleLine ['U', 'P', 'D', 'A', 'T', 'E', ' ', '"', 'a', 'b', 'c', '"', ' ', ';', ' ', 'x'] =
      some [.update [0x61, 0x62, 0x63]] ∧
    assembleLine ['H', 'A', 'S', 'H', ' ', '3', '*', '6', '1', ' ', '8', '0'] =
      some [.hash [0x61, 0x61, 0x61, 0x80]] ∧
    assembleLine ['T', 'O', 'H', 'E', 'X', ' ', '1', '9', '*', '0', '0'] = none := by decide

/-- R63: the pseudo-instructions; a comment alone is no command. -/
theorem test_assemble_pseudo : assembleLine ['N', 'E', 'W'] = some [.reset] ∧
    assembleLine ['N', 'O', 'P'] = some [.update []] ∧
    assembleLine ['U', 'P', 'D', 'A', 'T', 'E', 'B', ' ', '8', '0'] = some [.update [0x80]] ∧
    assembleLine [';', 'x'] = some [] := by decide

/-! ### Codec, functions, tables, compression (spec/95_test_vectors.md, sections 3 and 4) -/

/-- Section 4.1: packing and unpacking. -/
theorem test_words : loadWordLe 0x61 0x62 0x63 0x80 = 0x80636261 ∧ loadWordLe 0x00 0x00 0x00 0x80 = 0x80000000 ∧
    wordBytes 0xA585119C = [0x9C, 0x11, 0x85, 0xA5] := by decide

/-- Section 4.1: rotate-left. -/
theorem test_rol : rol 0x80000000 ⟨1, by decide⟩ = 0x00000001 ∧ rol 0x00000001 ⟨31, by decide⟩ = 0x80000000 ∧
    rol 0x12345678 rotC = 0xD159E048 ∧ rol 0x80000001 ⟨15, by decide⟩ = 0x0000C000 := by decide

/-- Section 4.1: the length bytes, and the two additions that wrap. -/
theorem test_length_bytes :
    storeLe64 0x123456789ABCDEF = [0xEF, 0xCD, 0xAB, 0x89, 0x67, 0x45, 0x23, 0x01] ∧
    (0x80000000 : Word) + 0x80000000 = 0 ∧ (0xFFFFFFFFFFFFFFFF : BitVec 64) + 2 = 1 := by decide

/-- Section 4.2, the truth tables: bit `4x + 2y + z` of the columns. -/
theorem test_functions : let x : Word := 0xF0; let y : Word := 0xCC; let z : Word := 0xAA
    f0 x y z &&& 0xFF = 0x96 ∧ f1 x y z &&& 0xFF = 0xCA ∧ f2 x y z &&& 0xFF = 0x59 ∧
    f3 x y z &&& 0xFF = 0xE4 ∧ f4 x y z &&& 0xFF = 0x2D := by decide

/-- Section 3.1: the registers after step 0, and the table entries of step 79. -/
theorem test_step_zero : let d := stepR 0 (stepL 0 (lineInit iv fun i => if i = 0 then 0x80 else 0))
    d.l = ⟨0xC3D2E1F0, 0x1606F864, 0xEFCDAB89, 0xEB73FA62, 0x10325476⟩ ∧
    d.r = ⟨0xC3D2E1F0, 0xDDD63FB8, 0xEFCDAB89, 0xEB73FA62, 0x10325476⟩ ∧
    rl 79 = 13 ∧ (sl 79).val = 6 ∧ rr 79 = 11 ∧ (sr 79).val = 11 := by decide

/-- Section 3.1: the block of the empty message; section 3.3: all ones. -/
theorem test_compress :
    compress iv (fun a => if a = 0 then 0x80 else 0) =
      ⟨0xA585119C, 0x54FCE9C5, 0x97082861, 0x48F5E87E, 0x318D25B2⟩ ∧
    compress ⟨0xFFFFFFFF, 0xFFFFFFFF, 0xFFFFFFFF, 0xFFFFFFFF, 0xFFFFFFFF⟩ (fun _ => 0xFF) =
      ⟨0xF282655D, 0xD3828CF1, 0x4FE5E0C5, 0xA3892B3E, 0xD14F6FCE⟩ := by decide +kernel

/-- Section 2, `"abc"`: the published digest at `LEN_SCALE = 8`, this hardware's at 1. -/
theorem test_length_scale :
    digest 8 [0x61, 0x62, 0x63] = [0x8E, 0xB2, 0x08, 0xF7, 0xE0, 0x5D, 0x98, 0x7A, 0x9B, 0x04, 0x4A, 0x8E, 0x98,
      0xC6, 0xB0, 0x87, 0xF1, 0x5A, 0x0B, 0xFC] ∧
    digest lenScale [0x61, 0x62, 0x63] = [0xE4, 0x58, 0x99, 0x01, 0x19, 0x00, 0x51, 0x75, 0xF0, 0xC1, 0x22, 0x16,
      0xD3, 0xB6, 0x06, 0x41, 0xC9, 0x42, 0x64, 0x30] := by decide +kernel

/-! ### Memory (R40) -/

/-- A write replaces the byte at its address, keeps the order, and leaves the other addresses. -/
theorem test_memory : Memory.write [(0, 1), (2, 3)] 1 7 = [(0, 1), (1, 7), (2, 3)] ∧
    Memory.write [(0, 1), (2, 3)] 2 7 = [(0, 1), (2, 7)] ∧ Memory.read [(0, 1), (2, 3)] 1 = none := by decide

/-- R40: the little-endian word at a word address, none while a byte of it is not written. -/
theorem test_memory_word : Memory.readWord (cellsOf [0x61, 0x62, 0x63, 0x80]) 0 = some 0x80636261 ∧
    Memory.readWord (cellsOf [0x61, 0x62, 0x63]) 0 = none := by decide

/-! ### Commands -/

/-- R146: `RESET` after a finalize opens a computation. -/
theorem test_reset : (after (step (fed done [0x01, 0x00, 0x00, 0x00]))).map (fun t => (t.phase, t.len, t.respOut)) =
    some (.active, 0, [0x00, 0x00, 0x00, 0x00]) := by decide

/-- R120: `UPDATE "abc"` buffers three bytes. -/
theorem test_update : (after (exec (.update [0x61, 0x62, 0x63]) State.reset)).map
      (fun t => (t.mem, t.bufLen, t.len, t.h)) =
    some ([(0, 0x61), (1, 0x62), (2, 0x63)], 3, 3, iv) := by decide

/-- Section 3.3: the 64th byte 0x61 completes a block, and the 65th is buffered at address 0. -/
theorem test_update_block : (after (exec (.update [0x61, 0x62]) (openWith 63))).map
      (fun t => (t.h, t.mem, t.bufLen, t.len)) =
    some (⟨0xD42339F0, 0xCE5B9F6F, 0x2874A075, 0xDF67AAF1, 0xC6C1BE1C⟩, [(0, 0x62)], 1, 65) := by decide +kernel

/-- Section 2: `FINALIZE` of the empty message; R134: `LEN` is 64 and the instance finalized after it. -/
theorem test_finalize : (after (exec .finalize State.reset)).map (fun t => (t.respOut, t.len, t.phase)) =
    some ([0x00, 0x14, 0x00, 0x00] ++ [0x9C, 0x11, 0x85, 0xA5, 0xC5, 0xE9, 0xFC, 0x54, 0x61, 0x28, 0x08, 0x97,
      0x7E, 0xE8, 0xF5, 0x48, 0xB2, 0x25, 0x8D, 0x31], 64, .finalized) := by decide +kernel

/-- Section 2, `61^56`: 56 buffered bytes need a second padding block. -/
theorem test_finalize_two_blocks : (after (exec .finalize (openWith 56))).map (fun t => (t.respOut, t.len)) =
    some ([0x00, 0x14, 0x00, 0x00] ++ [0x0E, 0x27, 0x05, 0x3F, 0x3D, 0x14, 0xCB, 0xB4, 0x7F, 0x1E, 0x32, 0xCB,
      0x94, 0xA2, 0x54, 0x2E, 0x5E, 0x29, 0xC1, 0xA3], 128) := by decide +kernel

/-- R141: the high nibble first, lower-case letters; R150: `TOHEX` runs after a finalize. -/
theorem test_tohex : (after (exec (.tohex (0x9C :: List.replicate 19 0x0F)) done)).map (·.respOut) =
    some ([0x00, 0x28, 0x00, 0x00] ++ [0x39, 0x63] ++ (List.replicate 19 [0x30, 0x66]).flatten) := by decide

/-- Section 2: `HASH "abc"` answers the string `e458990119005175f0c12216d3b60641c9426430`. -/
theorem test_hash : (after (exec (.hash [0x61, 0x62, 0x63]) (openWith 5))).map (·.respOut) =
    some ([0x00, 0x28, 0x00, 0x00] ++ ['e', '4', '5', '8', '9', '9', '0', '1', '1', '9', '0', '0', '5', '1', '7',
      '5', 'f', '0', 'c', '1', '2', '2', '1', '6', 'd', '3', 'b', '6', '0', '6', '4', '1', 'c', '9', '4', '2', '6',
      '4', '3', '0'].map fun c => BitVec.ofNat 8 c.toNat) := by decide +kernel

/-- R162: `UPDATE` of nothing after a finalize is refused and changes nothing but the response. -/
theorem test_lifecycle : after (step (fed done [0x02, 0x00, 0x00, 0x00])) =
    some { done with respOut := [0x02, 0x00, 0x00, 0x00] } := by decide

/-- R161: an illegal command's payload is consumed, and the engine is ready for the next command. -/
theorem test_illegal : after (step (fed (openWith 2) [0x06, 0x01, 0x00, 0x00, 0xAA, 0x01])) =
    some { fed (openWith 2) [0x01] with respOut := [0x01, 0x00, 0x00, 0x00] } := by decide

/-! ### Witnesses: the hypotheses of each obligation, met together -/

theorem inv_reset : Inv State.reset := ⟨by decide, by decide, by decide⟩
theorem inv_done : Inv done := ⟨by decide, by decide, by decide⟩
theorem inv_open_55 : Inv (openWith 55) := ⟨by decide, by decide, by decide⟩
theorem inv_open_56 : Inv (openWith 56) := ⟨by decide, by decide, by decide⟩
theorem inv_open_63 : Inv (openWith 63) := ⟨by decide, by decide, by decide⟩

/-- A state whose count stands one below the documented limit. -/
def atLimit : State := holds .active (List.replicate 63 0x61) (BitVec.ofNat 64 (2 ^ 61 - 1))

theorem inv_atLimit : Inv atLimit := ⟨by decide, by decide, by decide⟩

theorem witness_RotateMovesEveryBit : (1 ≤ (1 : Nat) ∧ (1 : Nat) ≤ 31) ∧ (1 ≤ (31 : Nat) ∧ (31 : Nat) ≤ 31) ∧
    (0 : Nat) < 32 ∧ (31 : Nat) < 32 := by decide

theorem witness_LengthBytesAreLittleEndian : (0 : Nat) < 8 ∧ (7 : Nat) < 8 ∧
    (storeLe64 0x0100000000000002)[0]? = some 2 ∧ (storeLe64 0x0100000000000002)[7]? = some 1 := by decide

theorem witness_RoundFunctionsBitwise : (0 : Nat) < 32 ∧ (31 : Nat) < 32 ∧
    (f1 0x80000000 0x80000000 0).getLsbD 31 = true := by decide

theorem witness_TablesMeetTheirChecks : (5 : Nat) ≤ (5 : Fin 16).val ∧ (5 : Fin 16).val ≠ 10 ∧
    5 ≤ (15 : Fin 16).val ∧ (15 : Fin 16).val ≠ 10 ∧ 0 ∈ rlTable ++ rrTable ∧ 15 ∈ rlTable ++ rrTable ∧
    5 ∈ slTable ++ srTable ∧ 15 ∈ slTable ++ srTable := by decide

theorem witness_ScheduleIsLittleEndianBufferWords :
    ∃ B, Memory.readBlock (cellsOf (List.replicate 64 0x61)) = .ok B := by
  have h : ∀ a : Fin 64, (Memory.read (cellsOf (List.replicate 64 0x61)) a.val).isSome := by decide +kernel
  exact ⟨_, dif_pos h⟩

theorem witness_DecodeOfEncode : Instr.reset.wf = true ∧ (Instr.update []).wf = true ∧ Instr.finalize.wf = true ∧
    (Instr.tohex (List.replicate 20 0xFF)).wf = true ∧ (Instr.hash [0xFF]).wf = true := by decide

theorem witness_DecodedBytesAreTheEncoding :
    decode [0x02, 0x01, 0x00, 0x00, 0xFF, 0x07] = .command (.update [0xFF]) [0x07] := by decide

theorem witness_LaterBytesKeepFraming : decode [0x03, 0x00, 0x00, 0x00] = .command .finalize [] ∧
    decode [0x03, 0x01, 0x00, 0x00, 0x09] = .illegal (.forbiddenCount 0x03 1) [] := by decide

theorem witness_StepRunsDecodedCommand :
    decode (fed (openWith 63) [0x02, 0x01, 0x00, 0x00, 0x61, 0x03]).cmdIn = .command (.update [0x61]) [0x03] := by
  decide

/-- A whole command for each clause, after a finalize: an illegal word, `UPDATE` of nothing, `RESET`. -/
theorem witness_DispatchFollowsItsOrder :
    (∀ b : Byte, (fed done [b, 0x00, 0x00, 0x00]).cmdIn = b :: 0x00 :: 0x00 :: 0x00 :: ([] ++ [])) ∧
    ([] : List Byte).length = countOf 0x00 0x00 0x00 ∧ IllegalWord (0x00 : Byte).toNat (countOf 0x00 0x00 0x00) ∧
    (¬ IllegalWord (0x02 : Byte).toNat (countOf 0x00 0x00 0x00) ∧
      (((0x02 : Byte).toNat = 2 ∨ (0x02 : Byte).toNat = 3) ∧ done.phase = .finalized)) ∧
    ¬ IllegalWord (0x01 : Byte).toNat (countOf 0x00 0x00 0x00) ∧
      ¬ (((0x01 : Byte).toNat = 2 ∨ (0x01 : Byte).toNat = 3) ∧ done.phase = .finalized) := by
  unfold IllegalWord
  exact ⟨fun _ => rfl, by decide, by decide, by decide, by decide, by decide⟩

/-- The first clause at three bytes; the second at no byte of one announced, and one short of three. -/
theorem witness_IncompleteCommandWaits : (fed State.reset [0x01, 0x00, 0x00]).cmdIn.length < 4 ∧
    ((fed State.reset [0x02, 0x01, 0x00, 0x00]).cmdIn = 0x02 :: 0x01 :: 0x00 :: 0x00 :: [] ∧
      ([] : List Byte).length < countOf 0x01 0x00 0x00) ∧
    ((fed done [0x02, 0x03, 0x00, 0x00, 0x61, 0x62]).cmdIn = 0x02 :: 0x03 :: 0x00 :: 0x00 :: [0x61, 0x62] ∧
      ([0x61, 0x62] : List Byte).length < countOf 0x03 0x00 0x00) := by decide

/-- Each case of R59 at its ends: opcodes 0x00, 0x06 and 0xFF; `N` = 1; `TOHEX` with 19 and 21. -/
theorem witness_IllegalCommandIsRefusedInPlace :
    (IllegalWord 0 0 ∧ IllegalWord 6 0 ∧ IllegalWord 255 0 ∧ IllegalWord 1 1 ∧ IllegalWord 3 1 ∧
      IllegalWord 4 19 ∧ IllegalWord 4 21) ∧
    IllegalWord (0x06 : Byte).toNat (countOf 0x01 0x00 0x00) ∧ ([0xAA] : List Byte).length = countOf 0x01 0x00 0x00 ∧
    (fed (openWith 2) [0x06, 0x01, 0x00, 0x00, 0xAA, 0x01]).cmdIn =
      0x06 :: 0x01 :: 0x00 :: 0x00 :: ([0xAA] ++ [0x01]) := by
  unfold IllegalWord
  exact ⟨⟨by decide, by decide, by decide, by decide, by decide, by decide, by decide⟩, by decide, by decide, rfl⟩

/-- The neighbours of R59's cases that are legal. -/
theorem witness_legal_words : ¬ IllegalWord 5 0 ∧ ¬ IllegalWord 1 0 ∧ ¬ IllegalWord 3 0 ∧ ¬ IllegalWord 4 20 ∧
    ¬ IllegalWord 2 7 := by
  unfold IllegalWord
  decide

/-- `N` = 0 and `N` = 1; and the word of `FINALIZE` with `N` = 1. -/
theorem witness_FormatCheckBeforeLifecycle : (decodeWord 0x00000103 = none ∧
      ((wordOpc 0x00000103).toNat = 2 ∨ (wordOpc 0x00000103).toNat = 3)) ∧ done.phase = .finalized ∧
    (([] : List Byte).length = countOf 0x00 0x00 0x00 ∧
      (fed done [0x03, 0x00, 0x00, 0x00]).cmdIn = 0x03 :: 0x00 :: 0x00 :: 0x00 :: ([] ++ [])) ∧
    ([0xAA] : List Byte).length = countOf 0x01 0x00 0x00 ∧
      (fed done [0x03, 0x01, 0x00, 0x00, 0xAA]).cmdIn = 0x03 :: 0x01 :: 0x00 :: 0x00 :: ([0xAA] ++ []) := by decide

theorem witness_LifecycleMisuseIsRefused : done.phase = .finalized := by decide

theorem witness_MisuseInARowLeavesNoTrace : done.phase = .finalized ∧
    ∀ i ∈ [Instr.finalize, .update [], .update [0x61]], i = .finalize ∨ ∃ data, i = .update data := by
  refine ⟨by decide, fun i hi => ?_⟩
  simp only [List.mem_cons, List.not_mem_nil, or_false] at hi
  rcases hi with rfl | rfl | rfl
  · exact .inl rfl
  · exact .inr ⟨_, rfl⟩
  · exact .inr ⟨_, rfl⟩

/-- Both phases, and a well-formed command of each kind. -/
theorem witness_AcceptanceByPhase : (Inv State.reset ∧ State.reset.phase = .active) ∧
    (Inv done ∧ done.phase = .finalized) ∧ Instr.reset.wf = true ∧ (Instr.update [0x61]).wf = true ∧
    Instr.finalize.wf = true ∧ (Instr.tohex (List.replicate 20 0)).wf = true ∧ (Instr.hash []).wf = true :=
  ⟨⟨inv_reset, rfl⟩, ⟨inv_done, rfl⟩, by decide⟩

theorem inv_fed {s : State} (hs : Inv s) (bytes : List Byte) : Inv (fed s bytes) :=
  ⟨hs.valid, hs.residue, hs.drained⟩

theorem witness_OneResponsePerCommand : Inv (fed done [0x02, 0x00, 0x00, 0x00]) ∧
    decode (fed done [0x02, 0x00, 0x00, 0x00]).cmdIn ≠ .incomplete :=
  ⟨inv_fed inv_done _, by decide⟩

theorem witness_CommandsRunInStreamOrder : ∀ i ∈ [Instr.update [0x61], .finalize, .reset], i.wf = true := by decide

theorem witness_ContractKeepingHostMeetsNoFault : Inv (openWith 63) ∧ (openWith 63).phase = .active ∧
    ∀ c ∈ [[0x61], [], [0x62, 0x63]], (c : List Byte).length ≤ Config.nMax :=
  ⟨inv_open_63, rfl, by decide⟩

theorem witness_ResetRestoresInitialState : ([0xAA] : List Byte).length = countOf 0x01 0x00 0x00 ∧
    ([0xAA] : List Byte) ≠ [] ∧ (fed done [0x01, 0x01, 0x00, 0x00, 0xAA]).cmdIn =
      0x01 :: 0x01 :: 0x00 :: 0x00 :: ([0xAA] ++ []) := by decide

theorem witness_ResetAndHashForgetThePast : (openWith 5).cmdIn = done.cmdIn ∧
    (openWith 5).respOut = done.respOut ∧ openWith 5 ≠ done := by decide

/-- No buffered byte, and 63. -/
theorem witness_UpdateFollowsTheSourceLoop : (Inv State.reset ∧ State.reset.phase = .active) ∧
    Inv (openWith 63) ∧ (openWith 63).phase = .active := ⟨⟨inv_reset, rfl⟩, inv_open_63, rfl⟩

theorem witness_UpdateClosedForm : Inv (openWith 63) ∧ (openWith 63).phase = .active := ⟨inv_open_63, rfl⟩

/-- The longest payload that completes no block, and the empty one beside 63 bytes. -/
theorem witness_UpdateStoresAtWritePosition :
    (Inv State.reset ∧ State.reset.phase = .active ∧
      State.reset.bufLen.toNat + (List.replicate 63 (0x61 : Byte)).length < 64) ∧
    Inv (openWith 63) ∧ (openWith 63).phase = .active ∧ (openWith 63).bufLen.toNat + ([] : List Byte).length < 64 :=
  ⟨⟨inv_reset, rfl, by decide⟩, inv_open_63, rfl, by decide⟩

theorem witness_UpdateFrameAndCount : State.reset.phase = .active ∧
    ∃ t, exec (.update [0x61]) State.reset = .next t := ⟨rfl, _, rfl⟩

theorem witness_EmptyUpdateChangesNothing : (openWith 63).phase = .active := by decide

theorem witness_ChunkingNeverMatters : Inv (openWith 55) ∧ (openWith 55).phase = .active := ⟨inv_open_55, rfl⟩

/-- The last count below the limit. -/
theorem witness_LengthIsExactBelowTheLimit : Inv atLimit ∧ atLimit.phase = .active ∧ withinLimit atLimit 0 ∧
    ¬ withinLimit atLimit 1 := by
  refine ⟨inv_atLimit, rfl, ?_⟩
  unfold withinLimit
  decide

/-- The residues on both sides of the second padding block, and the ends. -/
theorem witness_FinalizeClosedForm : (Inv State.reset ∧ State.reset.phase = .active) ∧
    (Inv (openWith 55) ∧ (openWith 55).phase = .active) ∧ (Inv (openWith 56) ∧ (openWith 56).phase = .active) ∧
    Inv (openWith 63) ∧ (openWith 63).phase = .active :=
  ⟨⟨inv_reset, rfl⟩, ⟨inv_open_55, rfl⟩, ⟨inv_open_56, rfl⟩, inv_open_63, rfl⟩

theorem witness_FinalizeFollowsTheSourceSteps : Inv (openWith 56) ∧ (openWith 56).phase = .active :=
  ⟨inv_open_56, rfl⟩

theorem witness_DigestDeterminesStateWords : serialize iv = serialize ⟨0x67452301, 0xEFCDAB89, 0x98BADCFE,
    0x10325476, 0xC3D2E1F0⟩ := by decide

theorem witness_DigestOfChunkedMessage :
    ([[0x61], [], [0x62, 0x63]] : List (List Byte)).flatten.length < Config.lenLimit := by decide

theorem witness_HexEncoderRendersNibbles : 0 < [(0x9C : Byte)].length ∧ toHex [0x9C] = toHex [0x9C] := by decide

/-- Twenty bytes; nineteen and twenty-one of them announced by `N`. -/
theorem witness_TohexAnswersTheHexString : (List.replicate 20 (0xFF : Byte)).length = 20 ∧
    (∀ n ∈ [19, 21], (List.replicate n (0xFF : Byte)).length = countOf (BitVec.ofNat 8 n) 0x00 0x00 ∧
      (List.replicate n (0xFF : Byte)).length ≠ 20 ∧
      (fed done (0x04 :: BitVec.ofNat 8 n :: 0x00 :: 0x00 :: (List.replicate n 0xFF ++ [0x01]))).cmdIn =
        0x04 :: BitVec.ofNat 8 n :: 0x00 :: 0x00 :: (List.replicate n 0xFF ++ [0x01])) := by decide

theorem witness_HashEqualsExplicitSequence : ([0x61, 0x62, 0x63] : List Byte).length ≤ Config.nMax := by decide

theorem witness_EveryStepKeepsTheInvariant : Inv (fed (openWith 55) [0x02, 0x01, 0x00, 0x00, 0x61]) ∧
    ∃ t, step (fed (openWith 55) [0x02, 0x01, 0x00, 0x00, 0x61]) = .next t := ⟨inv_fed inv_open_55 _, _, rfl⟩

theorem witness_EveryStepAnswersANextState : Inv (fed done [0x05, 0x00, 0x00, 0x00]) := inv_fed inv_done _

/-- A next state of each command. -/
theorem witness_PhaseWrittenByThreeCommands : (∃ t, exec .reset done = .next t) ∧
    (∃ t, exec (.update []) done = .next t) ∧ (∃ t, exec (.update [0x61]) State.reset = .next t) ∧
    (∃ t, exec .finalize done = .next t) ∧ (∃ t, exec (.tohex []) done = .next t) ∧
    (after (exec .finalize State.reset)).isSome ∧ (after (exec (.hash []) done)).isSome :=
  ⟨⟨_, rfl⟩, ⟨_, rfl⟩, ⟨_, rfl⟩, ⟨_, rfl⟩, ⟨_, rfl⟩, by decide +kernel⟩

/-- A command that is neither `RESET` nor `HASH`: both clauses' premises. -/
theorem witness_FinalizedUntilResetOrHash : (fed done [0x03, 0x00, 0x00, 0x00]).phase = .finalized ∧
    (∃ t, step (fed done [0x03, 0x00, 0x00, 0x00]) = .next t) ∧
    (∀ rest, decode (fed done [0x03, 0x00, 0x00, 0x00]).cmdIn ≠ .command .reset rest) ∧
    ∀ data rest, decode (fed done [0x03, 0x00, 0x00, 0x00]).cmdIn ≠ .command (.hash data) rest := by
  have h : decode (fed done [0x03, 0x00, 0x00, 0x00]).cmdIn = .command .finalize [] := by decide
  refine ⟨rfl, ⟨_, rfl⟩, fun rest => ?_, fun data rest => ?_⟩ <;> rw [h] <;> simp

theorem witness_CommandsIgnoreTheStreams : ∃ t, exec (.update [0x61]) State.reset = .next t := ⟨_, rfl⟩

end Sys2Proof.Tests
end

section
/-! PROOFS. The family 10_state.md: what a command that answers a next state has done, one inversion lemma per
command, and from these the phase it leaves; the initial lifecycle state. -/

namespace Sys2Proof.Machine

/-- A command answers a next state exactly when its work meets no stop. -/
theorem outcome_eq_next {x : Except Fault State} {t : State} : outcome x = .next t ↔ x = .ok t := by
  cases x <;> simp

/-- R130, R149: a finished computation is `FINALIZED`; the streams stay. -/
theorem finish_frame {s t : State} (h : finish s = .ok t) :
    t.phase = .finalized ∧ t.cmdIn = s.cmdIn ∧ t.respOut = s.respOut := by
  obtain ⟨u, hu, rfl⟩ := except_map_eq_ok h
  exact ⟨rfl, (pad_frame hu).2⟩

theorem lifecycleOk_eq_false {s : State} (h : ¬ lifecycleOk s = true) : s.phase = .finalized := by
  cases hp : s.phase with
  | active => exact absurd ((lifecycleOk_iff s).2 hp) h
  | finalized => rfl

/-- R148, R162: `UPDATE` absorbs its payload in an open computation, or is refused in a finalized one. -/
theorem execUpdate_cases {data : List Byte} {s t : State} (h : execUpdate data s = .next t) :
    (s.phase = .active ∧ ∃ u, update data s = .ok u ∧ t = respond .ok [] u) ∨
      (s.phase = .finalized ∧ t = respond .lifecycle [] s) := by
  unfold execUpdate at h
  split at h
  · next hok =>
    obtain ⟨u, hu, rfl⟩ := except_map_eq_ok (outcome_eq_next.1 h)
    exact .inl ⟨(lifecycleOk_iff s).1 hok, u, hu, rfl⟩
  · next hok =>
    cases h
    exact .inr ⟨lifecycleOk_eq_false hok, rfl⟩

/-- R149, R162: `FINALIZE` finishes an open computation, or is refused in a finalized one. -/
theorem execFinalize_cases {s t : State} (h : execFinalize s = .next t) :
    (s.phase = .active ∧ ∃ u, finish s = .ok u ∧ t = respond .ok (serialize u.h) u) ∨
      (s.phase = .finalized ∧ t = respond .lifecycle [] s) := by
  unfold execFinalize at h
  split at h
  · next hok =>
    obtain ⟨u, hu, rfl⟩ := except_map_eq_ok (outcome_eq_next.1 h)
    exact .inl ⟨(lifecycleOk_iff s).1 hok, u, hu, rfl⟩
  · next hok =>
    cases h
    exact .inr ⟨lifecycleOk_eq_false hok, rfl⟩

/-- R150, R161: `TOHEX` answers the hex string of a 20-byte payload and refuses any other; it does no more. -/
theorem execTohex_cases {dg : List Byte} {s t : State} (h : execTohex dg s = .next t) :
    (∃ digest, digestOperand dg = some digest ∧ t = respond .ok (toHex digest) s) ∨
      (digestOperand dg = none ∧ t = respond .illegalCommand [] s) := by
  unfold execTohex at h
  split at h
  · next digest hd =>
    cases h
    exact .inl ⟨digest, hd, rfl⟩
  · next hd =>
    cases h
    exact .inr ⟨hd, rfl⟩

/-- R151: `HASH` absorbs its payload from the initial lifecycle state, in either phase, and finishes. -/
theorem execHash_cases {data : List Byte} {s t : State} (h : execHash data s = .next t) :
    ∃ u v, update data (initialise s) = .ok u ∧ finish u = .ok v ∧
      t = respond .ok (toHex (serialize v.h)) v := by
  obtain ⟨v, hv, rfl⟩ := except_map_eq_ok (outcome_eq_next.1 h)
  obtain ⟨u, hu, hv⟩ := except_bind_eq_ok hv
  exact ⟨u, v, hu, hv, rfl⟩

/-- R24, R181: the initial lifecycle state, with the five numbers written out. -/
theorem initialise_values (s : State) :
    (initialise s).h = ⟨0x67452301, 0xEFCDAB89, 0x98BADCFE, 0x10325476, 0xC3D2E1F0⟩ ∧
      (initialise s).bufLen = 0 ∧ bufferOf (initialise s) = [] ∧ (initialise s).len = 0 ∧
      (initialise s).phase = .active :=
  ⟨rfl, rfl, rfl, rfl, rfl⟩

/-- R180: initialising changes nothing of the state after power-on. -/
theorem initialise_powerOn : initialise State.reset = State.reset := rfl

end Sys2Proof.Machine

namespace Sys2Proof.Proofs

open Sys2Proof.Machine

/-- Settles O50, command by command: `UPDATE`'s work and every refusal keep the phase, `finish` sets it. -/
theorem phaseWrittenByThreeCommands : Obligations.PhaseWrittenByThreeCommands := by
  intro i s t h
  cases i with
  | reset =>
    cases h
    rfl
  | update data =>
    obtain ⟨-, u, hu, rfl⟩ | ⟨-, rfl⟩ := execUpdate_cases h
    · exact (update_frame hu).1
    · rfl
  | finalize =>
    obtain ⟨-, u, hu, rfl⟩ | ⟨hs, rfl⟩ := execFinalize_cases h
    · exact (finish_frame hu).1
    · exact hs
  | tohex dg =>
    obtain ⟨digest, -, rfl⟩ | ⟨-, rfl⟩ := execTohex_cases h
    · rfl
    · rfl
  | hash data =>
    obtain ⟨u, v, -, hv, rfl⟩ := execHash_cases h
    exact (finish_frame hv).1

/-- Settles O27: power-on and `RESET` both leave the initial lifecycle state. -/
theorem stateAfterReset : Obligations.StateAfterReset := by
  refine ⟨?_, fun s => ⟨respond .ok [] (initialise s), rfl, ?_⟩⟩
  · rw [← initialise_powerOn]
    exact initialise_values State.reset
  · exact initialise_values s

end Sys2Proof.Proofs
end

section
/-! PROOFS. The family 30_encoding.md: what a stream that decodes to a command holds, no stop under the
invariant, and the one response of a whole command. -/

namespace Sys2Proof

open Sys2Proof.Machine

/-- R57: a word of the opcode map has a row that covers it. -/
theorem exists_row_of_decodeWord {w : Word} {op : Op} (h : decodeWord w = some op) :
    ∃ r ∈ opcodeRows, r.covers w = true ∧ r.op = op := by
  obtain ⟨r, hr, hop⟩ := Option.map_eq_some_iff.1 h
  have hw := List.find?_some hr
  exact ⟨r, List.mem_of_find?_eq_some hr, hw, hop⟩

/-- R57: `TOHEX` has one command word, with `N = 20`. -/
theorem wordCount_of_decodeWord_tohex {w : Word} (h : decodeWord w = some .tohex) :
    wordCount w = Config.digestBytes := by
  obtain ⟨r, hr, hw, hop⟩ := exists_row_of_decodeWord h
  have hrow : r = ⟨.tohex, 0x00001404, 0xFFFFFFFF⟩ := by
    revert r
    simp [opcodeRows]
  rw [hrow, covers_full] at hw
  rw [hw]
  decide

/-- R55: what stands on a stream that decodes to a command. -/
theorem decode_eq_command {bytes rest : List Byte} {i : Instr} (h : decode bytes = .command i rest) :
    ∃ (b0 b1 b2 b3 : Byte) (t : List Byte) (op : Op), bytes = b0 :: b1 :: b2 :: b3 :: t ∧
      countOf b1 b2 b3 ≤ t.length ∧ decodeWord (loadWordLe b0 b1 b2 b3) = some op ∧
      i = op.withPayload (t.take (countOf b1 b2 b3)) ∧ rest = t.drop (countOf b1 b2 b3) := by
  match bytes with
  | b0 :: b1 :: b2 :: b3 :: t =>
    rw [decode_cons] at h
    split at h
    · cases h
    · next hlen =>
      split at h
      · next op hop =>
        cases h
        exact ⟨b0, b1, b2, b3, t, op, rfl, Nat.le_of_not_lt hlen, hop, rfl, rfl⟩
      · cases h
  | [] | [_] | [_, _] | [_, _, _] => cases h

/-- R57, R58: the decoder hands on well-formed commands only. -/
theorem decode_command_wf {bytes rest : List Byte} {i : Instr} (h : decode bytes = .command i rest) :
    i.wf = true := by
  obtain ⟨b0, b1, b2, b3, t, op, -, hlen, hop, rfl, -⟩ := decode_eq_command h
  have htake : (t.take (countOf b1 b2 b3)).length = countOf b1 b2 b3 := List.length_take_of_le hlen
  have hmax : countOf b1 b2 b3 ≤ Config.nMax := by
    have := b1.isLt; have := b2.isLt; have := b3.isLt
    simp only [countOf, Config.nMax]
    omega
  cases op with
  | reset => rfl
  | update => exact decide_eq_true (htake.trans_le hmax)
  | finalize => rfl
  | tohex =>
    have hcount := wordCount_of_decodeWord_tohex hop
    rw [wordCount_loadWordLe] at hcount
    exact decide_eq_true (htake.trans hcount)
  | hash => exact decide_eq_true (htake.trans_le hmax)

end Sys2Proof

namespace Sys2Proof.Machine

@[simp] theorem serialize_length (h : Five) : (serialize h).length = Config.digestBytes := by
  simp [serialize]

@[simp] theorem toHex_length (dg : List Byte) : (toHex dg).length = 2 * dg.length := by
  simp [toHex, hexByte, Nat.mul_comm]

/-- R5: a digest has 40 hex characters. -/
theorem toHex_length_of_digest {dg : List Byte} (h : dg.length = Config.digestBytes) :
    (toHex dg).length = Config.hexChars :=
  (toHex_length dg).trans (congrArg (2 * ·) h)

/-- R150: `TOHEX` of a digest answers its hex string, and is not refused. -/
theorem execTohex_of_length {dg : List Byte} (h : dg.length = Config.digestBytes) (s : State) :
    execTohex dg s = .next (respond .ok (toHex dg) s) := by
  simp only [execTohex, digestOperand, h, if_true]

/-- An open computation under the invariant finishes (R130, R169). -/
theorem finish_ok {s : State} (hs : Inv s) (ha : s.phase = .active) : ∃ t, finish s = .ok t := by
  have hpad := Reference.pad_holding (Reference.hasherOf_residue hs) ha
  rw [Reference.holding_hasherOf hs] at hpad
  exact ⟨_, by rw [finish, hpad]; rfl⟩

/-- R169: under the invariant every command ends in a next state, in both phases. -/
theorem exec_next (i : Instr) {s : State} (hs : Inv s) : ∃ t, exec i s = .next t := by
  cases i with
  | reset => exact ⟨_, rfl⟩
  | update data =>
    by_cases hok : lifecycleOk s = true
    · obtain ⟨u, hu, -, -⟩ := update_ok data hs ((lifecycleOk_iff s).1 hok)
      exact ⟨respond .ok [] u, by simp [exec, execUpdate, hok, hu, Except.map]⟩
    · exact ⟨_, if_neg hok⟩
  | finalize =>
    by_cases hok : lifecycleOk s = true
    · obtain ⟨u, hu⟩ := finish_ok hs ((lifecycleOk_iff s).1 hok)
      exact ⟨respond .ok (serialize u.h) u, by simp [exec, execFinalize, hok, hu, Except.map]⟩
    · exact ⟨_, if_neg hok⟩
  | tohex dg =>
    by_cases hlen : dg.length = Config.digestBytes
    · exact ⟨_, execTohex_of_length hlen s⟩
    · exact ⟨respond .illegalCommand [] s, by simp only [exec, execTohex, digestOperand, if_neg hlen]; rfl⟩
  | hash data =>
    obtain ⟨u, hu, hi, ha⟩ := update_ok data (initialise_inv s) rfl
    obtain ⟨v, hv⟩ := finish_ok hi ha
    exact ⟨respond .ok (toHex (serialize v.h)) v,
      by simp [exec, execHash, hu, hv, Except.map, bind, Except.bind]⟩

/-- R145: a whole legal command is consumed and run. -/
theorem step_of_command {s : State} {i : Instr} {rest : List Byte} (h : decode s.cmdIn = .command i rest) :
    step s = exec i (consume rest s) := by
  simp only [step, h]

/-- R161: a whole illegal command is consumed and answered by its exception. -/
theorem step_of_illegal {s : State} {why : Illegal} {rest : List Byte}
    (h : decode s.cmdIn = .illegal why rest) :
    step s = .next (respond .illegalCommand [] (consume rest s)) := by
  simp only [step, h]
  rfl

end Sys2Proof.Machine

namespace Sys2Proof.Proofs

open Sys2Proof.Machine

/-- R60: a step that leaves the response stream to its one `respond` has answered one of the responses
`allowed`, when `respond`'s own word and payload length are one. -/
theorem exists_response {s u : State} {st : Status} {p : List Byte} {n : Nat}
    {allowed : List (List Byte × Nat)} (hstep : step s = .next (respond st p u))
    (hout : u.respOut = s.respOut) (hlen : p.length = n)
    (hmem : (wordBytes (responseWord st n), n) ∈ allowed) :
    ∃ (t : State) (word payload : List Byte), step s = .next t ∧
      t.respOut = s.respOut ++ word ++ payload ∧ (word, payload.length) ∈ allowed := by
  subst hlen
  exact ⟨_, _, p, hstep, by rw [respond_respOut, hout, responseBytes, List.append_assoc], hmem⟩

/-- Settles O24, command by command: under the invariant the step answers a next state, whose one response the
command's inversion lemma gives: the first of the command's allowed ones, or the refusal. -/
theorem oneResponsePerCommand : Obligations.OneResponsePerCommand := by
  intro s hs hwhole
  cases hd : decode s.cmdIn with
  | incomplete => exact absurd hd hwhole
  | illegal why rest => exact exists_response (step_of_illegal hd) rfl rfl List.mem_cons_self
  | command i rest =>
    obtain ⟨t, ht⟩ := exec_next i (s := consume rest s) (Reference.inv_withStreams hs rest s.respOut)
    have hstep := (step_of_command hd).trans ht
    cases i with
    | reset =>
      cases ht
      exact exists_response hstep rfl rfl List.mem_cons_self
    | update data =>
      obtain ⟨-, u, hu, rfl⟩ | ⟨-, rfl⟩ := execUpdate_cases ht
      · exact exists_response hstep (update_frame hu).2.2 rfl List.mem_cons_self
      · exact exists_response hstep rfl rfl (List.mem_cons_of_mem _ List.mem_cons_self)
    | finalize =>
      obtain ⟨-, u, hu, rfl⟩ | ⟨-, rfl⟩ := execFinalize_cases ht
      · exact exists_response hstep (finish_frame hu).2.2 (serialize_length u.h) List.mem_cons_self
      · exact exists_response hstep rfl rfl (List.mem_cons_of_mem _ List.mem_cons_self)
    | tohex dg =>
      have hlen : dg.length = Config.digestBytes := of_decide_eq_true (decode_command_wf hd)
      cases (execTohex_of_length hlen _).symm.trans ht
      exact exists_response hstep rfl (toHex_length_of_digest hlen) List.mem_cons_self
    | hash data =>
      obtain ⟨u, v, hu, hv, rfl⟩ := execHash_cases ht
      have hout := (finish_frame hv).2.2.trans (update_frame hu).2.2
      exact exists_response hstep hout (toHex_length_of_digest (serialize_length v.h)) List.mem_cons_self

end Sys2Proof.Proofs
end

section
/-! PROOFS. The family 40_codec.md: the rotate-left as a sum without a carry out and as a movement of bits, and
the length bytes as the base-256 digits of the number. -/

namespace Sys2Proof.Machine

/-- R72: the two parts of a rotated word do not overlap, so their sum is a word: the high part is a multiple of
`2 ^ n`, and the low part is below `2 ^ n`. -/
theorem rol_parts_lt (x : Word) (n : RotAmount) :
    x.toNat * 2 ^ n.val % 2 ^ 32 + x.toNat / 2 ^ (32 - n.val) < 2 ^ 32 := by
  obtain ⟨n, h1, h2⟩ := n
  have hsplit : 2 ^ 32 = 2 ^ n * 2 ^ (32 - n) := by rw [← Nat.pow_add, Nat.add_sub_cancel' (by omega)]
  have hdvd : 2 ^ n ∣ 2 ^ 32 := Dvd.intro _ hsplit.symm
  have hhigh : x.toNat * 2 ^ n % 2 ^ 32 + 2 ^ n ≤ 2 ^ 32 :=
    Nat.le_of_lt_add_of_dvd (Nat.add_lt_add_right (Nat.mod_lt _ (Nat.two_pow_pos 32)) _)
      (Nat.dvd_add ((Nat.dvd_mod_iff hdvd).2 (Nat.dvd_mul_left _ _)) dvd_rfl) hdvd
  have hlow : x.toNat / 2 ^ (32 - n) < 2 ^ n := Nat.div_lt_of_lt_mul <| by
    rw [Nat.mul_comm, ← hsplit]
    exact x.isLt
  exact (Nat.add_lt_add_left hlow _).trans_le hhigh

/-- R72: the rotate-left as a number. -/
theorem rol_toNat (x : Word) (n : RotAmount) :
    (rol x n).toNat = x.toNat * 2 ^ n.val % 2 ^ 32 + x.toNat / 2 ^ (32 - n.val) := by
  rw [rol, BitVec.toNat_ofNat, Nat.mod_eq_of_lt (rol_parts_lt x n)]

/-- R72: bit `i` moves up by `n`, and round to the bottom where it would leave the word. -/
theorem rol_getLsbD (x : Word) (n : RotAmount) {i : Nat} (hi : i < 32) :
    (rol x n).getLsbD ((i + n.val) % 32) = x.getLsbD i := by
  rw [rol_eq_rotateLeft]
  obtain ⟨n, h1, h2⟩ := n
  have hn : n % 32 = n := Nat.mod_eq_of_lt (by omega)
  rw [BitVec.getLsbD_rotateLeft, hn]
  rcases Nat.lt_or_ge (i + n) 32 with h | h
  · have hpos : (i + n) % 32 = i + n := Nat.mod_eq_of_lt h
    simp [hpos, h]
  · have hpos : (i + n) % 32 = i + n - 32 := by omega
    have hwrap : i + n - 32 < n := by omega
    have hback : 32 - n + (i + n - 32) = i := by omega
    simp [hpos, hwrap, hback]

/-- R74: byte `k` of the encoding, as the number that the byte holds. -/
theorem storeLe64_getElem? (v : BitVec 64) {k : Nat} (hk : k < 8) :
    (storeLe64 v)[k]? = some (BitVec.ofNat 8 (v.toNat / 2 ^ (8 * k) % 256)) := by
  have hbyte : BitVec.ofNat 8 (v.toNat / 2 ^ (8 * k)) = BitVec.ofNat 8 (v.toNat / 2 ^ (8 * k) % 256) :=
    BitVec.eq_of_toNat_eq (by simp)
  simp [storeLe64, hk, ← hbyte]

/-- The lowest `n` bytes of a number, weighted by powers of 256, are the number modulo `256 ^ n`. -/
theorem foldr_littleEndian (n v : Nat) :
    ((List.range n).map fun k => BitVec.ofNat 8 (v / 2 ^ (8 * k))).foldr
      (fun b acc => b.toNat + 256 * acc) 0 = v % 256 ^ n := by
  induction n generalizing v with
  | zero => simp [Nat.mod_one]
  | succ n ih =>
    have hshift (k : Nat) : v / 2 ^ (8 * (k + 1)) = v / 256 / 2 ^ (8 * k) := by
      rw [Nat.div_div_eq_div_mul, Nat.mul_add, Nat.pow_add, Nat.mul_comm (2 ^ (8 * k))]
    rw [Nat.pow_succ', Nat.mod_mul, ← ih (v / 256)]
    simp [List.range_succ_eq_map, Function.comp_def, hshift]

end Sys2Proof.Machine

namespace Sys2Proof.Proofs

open Sys2Proof.Machine

/-- Settles O1: the two parts of the sum do not overlap, and the rotate is the bit vectors' own. -/
theorem rotateMovesEveryBit : Obligations.RotateMovesEveryBit :=
  fun x n => ⟨rol_toNat x n, fun _ hi => rol_getLsbD x n hi⟩

/-- Settles O3: the bytes are the eight lowest base-256 digits, and the number is below `256 ^ 8`. -/
theorem lengthBytesAreLittleEndian : Obligations.LengthBytesAreLittleEndian := by
  refine fun v => ⟨storeLe64_length v, fun _ hk => storeLe64_getElem? v hk, ?_⟩
  exact (foldr_littleEndian 8 v.toNat).trans (Nat.mod_eq_of_lt v.isLt)

end Sys2Proof.Proofs
end

section
/-! PROOFS. The family 41_round_functions_tables.md: what each of the five round functions does at one bit
position. `f3` and `f4` are `f1` and `f2` with the arguments turned. -/

namespace Sys2Proof.Machine

variable (x y z : Word)

/-- R81: the parity of the three bits. -/
theorem f0_getLsbD (i : Nat) : (f0 x y z).getLsbD i = ((x.getLsbD i != y.getLsbD i) != z.getLsbD i) := by
  rw [f0, BitVec.getLsbD_xor, BitVec.getLsbD_xor]

/-- R82: `x` selects between `y` and `z`. -/
theorem f1_getLsbD {i : Nat} (hi : i < 32) :
    (f1 x y z).getLsbD i = if x.getLsbD i then y.getLsbD i else z.getLsbD i := by
  rw [f1, BitVec.getLsbD_or, BitVec.getLsbD_and, BitVec.getLsbD_and, BitVec.getLsbD_not]
  cases x.getLsbD i <;> simp [hi]

/-- R83: the bit of `x` or the complement of `y`, exclusive or `z`. -/
theorem f2_getLsbD {i : Nat} (hi : i < 32) :
    (f2 x y z).getLsbD i = ((x.getLsbD i || !y.getLsbD i) != z.getLsbD i) := by
  rw [f2, BitVec.getLsbD_xor, BitVec.getLsbD_or, BitVec.getLsbD_not, decide_eq_true hi, Bool.true_and]

/-- R84: `z` selects between `x` and `y`, which is `f1` with its arguments turned. -/
theorem f3_eq_f1 : f3 x y z = f1 z x y := by
  rw [f3, f1, BitVec.and_comm x z, BitVec.and_comm y (~~~z)]

/-- R85: `f4` is `f2` with its arguments turned. -/
theorem f4_eq_f2 : f4 x y z = f2 y z x := by
  rw [f4, f2, BitVec.xor_comm]

end Sys2Proof.Machine

namespace Sys2Proof.Proofs

open Sys2Proof.Machine

/-- Settles O4: `f0`, `f1` and `f2` bit by bit; `f3` and `f4` are `f1` and `f2` with their arguments turned. -/
theorem roundFunctionsBitwise : Obligations.RoundFunctionsBitwise := by
  intro x y z i hi
  refine ⟨f0_getLsbD x y z i, f1_getLsbD x y z hi, f2_getLsbD x y z hi, ?_, ?_⟩
  · rw [f3_eq_f1, f1_getLsbD z x y hi]
  · rw [f4_eq_f2, f2_getLsbD y z x hi, bne_comm]

end Sys2Proof.Proofs
end

section
/-! PROOFS. The family 42_compression.md: one step of a line for any operands, the function that a step's quintile
selects, and the bytes of a block that is read from the buffer space. -/

namespace Sys2Proof.Machine

/-- R80: what a step selects by its quintile, by the step's index. -/
theorem apply_quintile {α : Type} (g : Fin 5 → α) (j : Fin 80) :
    g (quintile j) = if j.val < 16 then g 0 else if j.val < 32 then g 1 else if j.val < 48 then g 2
      else if j.val < 64 then g 3 else g 4 := by
  have of_val {q : Fin 5} (h : j.val / 16 = q.val) : g (quintile j) = g q := congrArg g (Fin.ext h)
  split_ifs
  · exact of_val (q := 0) (by omega)
  · exact of_val (q := 1) (by omega)
  · exact of_val (q := 2) (by omega)
  · exact of_val (q := 3) (by omega)
  · exact of_val (q := 4) (by omega)

/-- R86, left column: the functions in their order. -/
theorem roundFn_quintile (j : Fin 80) :
    roundFn (quintile j) = if j.val < 16 then f0 else if j.val < 32 then f1 else if j.val < 48 then f2
      else if j.val < 64 then f3 else f4 :=
  apply_quintile roundFn j

/-- R86, right column: the functions in the mirrored order. -/
theorem roundFn_mirror_quintile (j : Fin 80) :
    roundFn (mirror (quintile j)) = if j.val < 16 then f4 else if j.val < 32 then f3
      else if j.val < 48 then f2 else if j.val < 64 then f1 else f0 :=
  apply_quintile (fun q => roundFn (mirror q)) j

/-- R102, R103: one step of a line, with the bit vectors' own rotate-left. -/
theorem stepLine_mk (o : StepOperands) (a b c d e : Word) :
    stepLine o ⟨a, b, c, d, e⟩ =
      ⟨e, (a + o.f b c d + o.x + o.k).rotateLeft o.s.val + e, b, c.rotateLeft 10, d⟩ := by
  simp only [stepLine, rol_eq_rotateLeft, rotC]

/-- R40, R120: byte `a` of a block that is read is the byte written at address `a`. -/
theorem Memory.read_of_readBlock {m : Memory} {B : Block} (h : Memory.readBlock m = .ok B) (a : Fin 64) :
    m.read a.val = some (B a) := by
  unfold Memory.readBlock at h
  split at h
  · next written =>
    cases h
    exact (Option.some_get (written a)).symm
  · cases h

/-- R40: the word read at a word address, from its four bytes. -/
theorem Memory.readWord_of_read {m : Memory} {i : Fin 16} {b0 b1 b2 b3 : Byte}
    (h0 : m.read (4 * i.val) = some b0) (h1 : m.read (4 * i.val + 1) = some b1)
    (h2 : m.read (4 * i.val + 2) = some b2) (h3 : m.read (4 * i.val + 3) = some b3) :
    m.readWord i = some (loadWordLe b0 b1 b2 b3) := by
  rw [Memory.readWord, h0, h1, h2, h3]
  rfl

end Sys2Proof.Machine

namespace Sys2Proof.Proofs

open Sys2Proof.Machine

/-- Settles O6: a step of a line, with the operands of the left line. -/
theorem leftStepFollowsItsFormula : Obligations.LeftStepFollowsItsFormula := by
  intro j X a b c d e r f
  have hf : roundFn (quintile j) = f := roundFn_quintile j
  rw [stepL, stepLine_mk, leftOperands, hf]

/-- Settles O7: a step of a line, with the operands of the right line. -/
theorem rightStepFollowsItsFormula : Obligations.RightStepFollowsItsFormula := by
  intro j X a b c d e l f
  have hf : roundFn (mirror (quintile j)) = f := roundFn_mirror_quintile j
  rw [stepR, stepLine_mk, rightOperands, hf]

/-- Settles O9: the cyclic shifts by 1, 2 and 3, each index computed. -/
theorem combineCrossPattern : Obligations.CombineCrossPattern := by
  unfold Obligations.CombineCrossPattern
  intros
  rfl

/-- Settles O10: the bytes that the block shows are the ones at its addresses, and `X[i]` packs four of them. -/
theorem scheduleIsLittleEndianBufferWords : Obligations.ScheduleIsLittleEndianBufferWords := by
  intro m B hB i
  have hread := Memory.read_of_readBlock hB
  have h0 := hread ⟨4 * i.val, by omega⟩
  have h1 := hread ⟨4 * i.val + 1, by omega⟩
  have h2 := hread ⟨4 * i.val + 2, by omega⟩
  have h3 := hread ⟨4 * i.val + 3, by omega⟩
  exact ⟨_, _, _, _, h0, h1, h2, h3, loadWordLe_toNat .., Memory.readWord_of_read h0 h1 h2 h3⟩

end Sys2Proof.Proofs
end

section
/-! PROOFS. The family 43_streaming.md: what `UPDATE` and `FINALIZE` do to a state that holds a hasher, as commands
with their responses, and a run of `UPDATE`s as one update of the hasher. -/

namespace Sys2Proof.Reference

open Sys2Proof.Machine

/-- R60, R149: the digest's response follows on the response stream. -/
theorem respond_serialize_respOut (h : Five) (s : State) :
    (respond .ok (serialize h) s).respOut = s.respOut ++ [0x00, 0x14, 0x00, 0x00] ++ serialize h := by
  rw [respond_respOut, responseBytes, serialize_length, ← List.append_assoc]
  rfl

section

variable {c : Hasher} {s : State}

/-- R120, R148: `UPDATE` updates the hasher held; beside it the state gains the response only. -/
theorem exec_update_holding (data : List Byte) (hr : c.buf.length = c.len.toNat % 64) (ha : s.phase = .active) :
    exec (.update data) (holding c s) = .next (holding (c.update data) (respond .ok [] s)) := by
  have hok : lifecycleOk (holding c s) = true := (lifecycleOk_iff _).2 ha
  rw [exec, execUpdate, if_pos hok, update_holding data hr ha]
  rfl

/-- R130, R149: `FINALIZE` finalizes the hasher held and responds with its digest. -/
theorem exec_finalize_holding (hr : c.buf.length = c.len.toNat % 64) (ha : s.phase = .active) :
    exec .finalize (holding c s) =
      .next (holding (c.finalize lenScale)
        (setFinalized (respond .ok (serialize (c.finalize lenScale).h) s))) := by
  have hok : lifecycleOk (holding c s) = true := (lifecycleOk_iff _).2 ha
  rw [exec, execFinalize, if_pos hok, finish, pad_holding hr ha]
  rfl

/-- R123: one `UPDATE` for each chunk updates the hasher held by the chunks' concatenation; beside it only the
response stream differs. -/
theorem execAll_updates_holding (chunks : List (List Byte)) (hr : c.buf.length = c.len.toNat % 64)
    (ha : s.phase = .active) :
    ∃ out, execAll (chunks.map .update) (holding c s) =
      .next (holding (c.update chunks.flatten) { s with respOut := out }) := by
  induction chunks generalizing c s with
  | nil =>
    refine ⟨s.respOut, ?_⟩
    rw [List.flatten_nil, Hasher.update_nil (by omega)]
    rfl
  | cons d chunks ih =>
    obtain ⟨out, hrun⟩ := ih (s := respond .ok [] s) (c.update_residue hr d) ha
    refine ⟨out, ?_⟩
    rw [List.map_cons, execAll, exec_update_holding d hr ha, List.flatten_cons, ← Hasher.update_append]
    exact hrun

end

end Sys2Proof.Reference

namespace Sys2Proof.Proofs

open Sys2Proof.Machine Sys2Proof.Reference

/-- Settles O30: the state is the one that holds its hasher, and `UPDATE` updates the hasher held. -/
theorem updateFollowsTheSourceLoop : Obligations.UpdateFollowsTheSourceLoop := by
  intro s data hs ha
  refine ⟨Hasher.update_buf_lt _ data, ?_⟩
  have hexec := exec_update_holding data (hasherOf_residue hs) ha
  rw [holding_hasherOf hs] at hexec
  exact hexec

/-- Settles O35: both ways of feeding the chunks hold the same hasher, and its digest is what `FINALIZE` returns. -/
theorem chunkingNeverMatters : Obligations.ChunkingNeverMatters := by
  intro s chunks hs ha
  have hr := hasherOf_residue hs
  obtain ⟨out, hrun⟩ := execAll_updates_holding chunks hr ha
  have hone := exec_update_holding chunks.flatten hr ha
  rw [holding_hasherOf hs] at hrun hone
  have hr' := Hasher.update_residue hr chunks.flatten
  exact ⟨_, _, _, _, _, hrun, hone, rfl, exec_finalize_holding hr' ha, exec_finalize_holding hr' ha,
    respond_serialize_respOut _ _, respond_serialize_respOut _ _⟩

end Sys2Proof.Proofs
end

section
/-! PROOFS. The family 44_finalizer.md: the padding completes the last block, so the finalized hasher's buffer is
empty; the serialized digest byte by byte. -/

namespace Sys2Proof.Reference

open Sys2Proof.Machine

/-- R131: the padding fills the message up to whole blocks. -/
theorem length_add_padding_length (scale n : Nat) : (n + (padding scale n).length) % 64 = 0 := by
  rw [padding_length, zeroCount]
  omega

/-- R120: an update up to whole blocks leaves nothing buffered. -/
theorem Hasher.update_buf_eq_nil {c : Hasher} {data : List Byte} (h : (c.buf.length + data.length) % 64 = 0) :
    (c.update data).buf = [] := by
  rw [Hasher.update_eq]
  apply List.drop_eq_nil_of_le
  rw [List.length_append]
  omega

/-- R130, R134: the six steps leave nothing buffered. -/
theorem Hasher.finalize_buf {c : Hasher} (hr : c.buf.length = c.len.toNat % 64) (scale : Nat) :
    (c.finalize scale).buf = [] := by
  have hpad := length_add_padding_length scale c.len.toNat
  rw [Hasher.finalize_eq hr]
  exact Hasher.update_buf_eq_nil (by omega)

end Sys2Proof.Reference

namespace Sys2Proof.Machine

/-- R133: digest byte `i`. -/
theorem serialize_getElem? (h : Five) (i : Fin 20) :
    (serialize h)[i.val]? = some (storeByte (h.get ⟨i.val / 4, by omega⟩) ⟨i.val % 4, by omega⟩) := by
  simp [serialize]

end Sys2Proof.Machine

namespace Sys2Proof.Proofs

open Sys2Proof.Machine Sys2Proof.Reference

/-- Settles O37: the state is the one that holds its hasher, and `FINALIZE` finalizes the hasher held. -/
theorem finalizeFollowsTheSourceSteps : Obligations.FinalizeFollowsTheSourceSteps := by
  intro s hs ha
  have hr := hasherOf_residue hs
  refine ⟨Hasher.finalize_buf hr _, ?_⟩
  have hexec := exec_finalize_holding hr ha
  rw [holding_hasherOf hs] at hexec
  rw [hexec, ← respond_serialize_respOut]
  rfl

/-- Settles O39: each index shows one stored byte of one State word. -/
theorem digestBytesFromStateWords : Obligations.DigestBytesFromStateWords := by
  intro h
  exact ⟨serialize_length h, fun i => ⟨_, serialize_getElem? h i, storeByte_toNat _ _⟩⟩

end Sys2Proof.Proofs
end

section
/-! PROOFS. The family 45_hex_encoder.md: a byte is its two nibbles, a nibble is the position of its digit; the hex
string taken apart from its head. -/

namespace Sys2Proof.Machine

/-- R140: bits 7:4 of a byte. -/
def highNibble (b : Byte) : Fin 16 := ⟨b.toNat / 16, by omega⟩

/-- R140: bits 3:0 of a byte. -/
def lowNibble (b : Byte) : Fin 16 := ⟨b.toNat % 16, by omega⟩

/-- R141: the string `0123456789abcdef` as ASCII codes. -/
def hexAlphabet : List Byte :=
  [0x30, 0x31, 0x32, 0x33, 0x34, 0x35, 0x36, 0x37, 0x38, 0x39, 0x61, 0x62, 0x63, 0x64, 0x65, 0x66]

theorem byte_eq_of_nibbles {a b : Byte} (hhigh : highNibble a = highNibble b) (hlow : lowNibble a = lowNibble b) :
    a = b := by
  have hdiv : a.toNat / 16 = b.toNat / 16 := congrArg Fin.val hhigh
  have hmod : a.toNat % 16 = b.toNat % 16 := congrArg Fin.val hlow
  exact BitVec.eq_of_toNat_eq (by omega)

/-- R141: the digit of `v` is the character at index `v`. -/
theorem hexAlphabet_getElem? : ∀ v : Fin 16, hexAlphabet[v.val]? = some (hexDigit v) := by decide

theorem hexDigit_injective : Function.Injective hexDigit := by decide

theorem toHex_cons (b : Byte) (dg : List Byte) :
    toHex (b :: dg) = hexDigit (highNibble b) :: hexDigit (lowNibble b) :: toHex dg := rfl

/-- R140: byte `i` is rendered at characters `2i` and `2i + 1`. -/
theorem toHex_getElem? {dg : List Byte} {i : Nat} {b : Byte} (h : dg[i]? = some b) :
    (toHex dg)[2 * i]? = some (hexDigit (highNibble b)) ∧
      (toHex dg)[2 * i + 1]? = some (hexDigit (lowNibble b)) := by
  induction dg generalizing i with
  | nil => simp at h
  | cons a dg ih =>
    rw [toHex_cons]
    cases i with
    | zero =>
      cases h
      exact ⟨rfl, rfl⟩
    | succ i => exact ih h

/-- R140: the hex string determines the bytes, each digit pair its byte. -/
theorem toHex_injective : Function.Injective toHex := by
  intro d
  induction d with
  | nil =>
    rintro (_ | ⟨b, e⟩) h
    · rfl
    · cases h
  | cons a d ih =>
    rintro (_ | ⟨b, e⟩) h
    · cases h
    · rw [toHex_cons, toHex_cons, List.cons.injEq, List.cons.injEq] at h
      obtain ⟨hhigh, hlow, htail⟩ := h
      rw [byte_eq_of_nibbles (hexDigit_injective hhigh) (hexDigit_injective hlow), ih htail]

end Sys2Proof.Machine

namespace Sys2Proof.Proofs

open Sys2Proof.Machine

/-- Settles O43: both characters of a byte are the alphabet's at its nibbles, and they give the byte back. -/
theorem hexEncoderRendersNibbles : Obligations.HexEncoderRendersNibbles := by
  refine ⟨fun dg => ⟨toHex_length dg, fun i hi => ?_⟩, fun _ _ h => toHex_injective h⟩
  have hb : dg[i]? = some dg[i] := List.getElem?_eq_getElem hi
  obtain ⟨hhigh, hlow⟩ := toHex_getElem? hb
  exact ⟨dg[i], hb, hhigh.trans (hexAlphabet_getElem? (highNibble dg[i])).symm,
    hlow.trans (hexAlphabet_getElem? (lowNibble dg[i])).symm⟩

end Sys2Proof.Proofs
end

section
/-! PROOFS. The family 46_commands.md: the opcode map by the fields of the command word, so what a whole command on
the stream decodes to; `TOHEX`'s response; `HASH` on the initial lifecycle state as a new hasher held. -/

namespace Sys2Proof

open Sys2Proof.Machine

/-- R57: the constraint that an operation puts on `N`. -/
def Op.AllowsCount : Op → Nat → Prop
  | .reset, n => n = 0
  | .update, _ => True
  | .finalize, n => n = 0
  | .tohex, n => n = 20
  | .hash, _ => True

/-- The payload is no part of the opcode. -/
theorem Op.withPayload_opcode (op : Op) (p q : List Byte) :
    (op.withPayload p).opcode = (op.withPayload q).opcode := by
  cases op <;> rfl

/-- R58: a payload of an allowed length is the command's payload; where the command has none, it is empty. -/
theorem Op.withPayload_payload {op : Op} {p : List Byte} (h : op.AllowsCount p.length) :
    (op.withPayload p).payload = p := by
  cases op with
  | reset | finalize => exact (List.length_eq_zero_iff.1 h).symm
  | update | tohex | hash => rfl

/-- R56: a command word is its opcode and its count. -/
theorem word_toNat_eq_fields (w : Word) : w.toNat = (wordOpc w).toNat + 2 ^ 8 * wordCount w := by
  rw [wordOpc, wordCount, BitVec.toNat_ofNat]
  omega

theorem word_eq_iff_fields (w p : Word) :
    w = p ↔ (wordOpc w).toNat = (wordOpc p).toNat ∧ wordCount w = wordCount p := by
  refine ⟨fun h => h ▸ ⟨rfl, rfl⟩, fun ⟨hopc, hcount⟩ => BitVec.eq_of_toNat_eq ?_⟩
  rw [word_toNat_eq_fields w, hopc, hcount, ← word_toNat_eq_fields]

/-- R57: a row of the opcode map covers the words with its opcode and a count it allows. -/
theorem covers_iff_fields {r : OpcodeRow} (hr : r ∈ opcodeRows) (w : Word) :
    r.covers w = true ↔
      (wordOpc w).toNat = (r.op.withPayload []).opcode ∧ r.op.AllowsCount (wordCount w) := by
  simp only [opcodeRows, List.mem_cons, List.not_mem_nil, or_false] at hr
  rcases hr with rfl | rfl | rfl | rfl | rfl
  · exact (covers_full ..).trans (word_eq_iff_fields ..)
  · exact (covers_opcode ..).trans (and_iff_left trivial).symm
  · exact (covers_full ..).trans (word_eq_iff_fields ..)
  · exact (covers_full ..).trans (word_eq_iff_fields ..)
  · exact (covers_opcode ..).trans (and_iff_left trivial).symm

/-- R57, R59: the words that no row covers are the illegal ones. -/
theorem decodeWord_eq_none_iff (w : Word) :
    decodeWord w = none ↔ IllegalWord (wordOpc w).toNat (wordCount w) := by
  have hrows : decodeWord w = none ↔ ∀ r ∈ opcodeRows,
      ¬ ((wordOpc w).toNat = (r.op.withPayload []).opcode ∧ r.op.AllowsCount (wordCount w)) := by
    rw [decodeWord, Option.map_eq_none_iff, List.find?_eq_none]
    exact forall₂_congr fun r hr => not_congr (covers_iff_fields hr w)
  rw [hrows]
  simp only [opcodeRows, List.forall_mem_cons, List.not_mem_nil, false_imp_iff, implies_true,
    and_true, Op.withPayload, Instr.opcode, Op.AllowsCount, IllegalWord]
  omega

section

variable {b0 b1 b2 b3 : Byte} {payload rest : List Byte} (hlen : payload.length = countOf b1 b2 b3)
include hlen

/-- R55, R59: a whole command with an illegal word decodes as illegal, and is framed by its count. -/
theorem decode_of_illegalWord (hill : IllegalWord b0.toNat (countOf b1 b2 b3)) :
    ∃ why, decode (b0 :: b1 :: b2 :: b3 :: (payload ++ rest)) = .illegal why rest := by
  have hnone : decodeWord (loadWordLe b0 b1 b2 b3) = none := by
    rwa [decodeWord_eq_none_iff, wordOpc_loadWordLe, wordCount_loadWordLe]
  rw [decode_cons, if_neg (by simp [hlen]), hnone, ← hlen, List.drop_left]
  exact ⟨_, rfl⟩

/-- R55, R57, R58: any other whole command decodes to a well-formed one with its opcode and payload. -/
theorem decode_of_not_illegalWord (hleg : ¬ IllegalWord b0.toNat (countOf b1 b2 b3)) :
    ∃ i : Instr, i.wf = true ∧ i.opcode = b0.toNat ∧ i.payload = payload ∧
      decode (b0 :: b1 :: b2 :: b3 :: (payload ++ rest)) = .command i rest := by
  obtain ⟨op, hop⟩ : ∃ op, decodeWord (loadWordLe b0 b1 b2 b3) = some op := by
    apply Option.ne_none_iff_exists'.1
    rwa [ne_eq, decodeWord_eq_none_iff, wordOpc_loadWordLe, wordCount_loadWordLe]
  obtain ⟨r, hr, hcovers, rfl⟩ := exists_row_of_decodeWord hop
  rw [covers_iff_fields hr, wordOpc_loadWordLe, wordCount_loadWordLe, ← hlen] at hcovers
  obtain ⟨hopc, hcount⟩ := hcovers
  have hdecode : decode (b0 :: b1 :: b2 :: b3 :: (payload ++ rest)) =
      .command (r.op.withPayload payload) rest := by
    rw [decode_cons, if_neg (by simp [hlen]), hop, ← hlen, List.take_left, List.drop_left]
  exact ⟨_, decode_command_wf hdecode, (r.op.withPayload_opcode ..).trans hopc.symm,
    Op.withPayload_payload hcount, hdecode⟩

end

end Sys2Proof

namespace Sys2Proof.Machine

/-- R161: a whole command with an illegal word is consumed and answered with status 0x01; nothing else changes. -/
theorem step_of_illegalWord {s : State} {b0 b1 b2 b3 : Byte} {payload rest : List Byte}
    (hill : IllegalWord b0.toNat (countOf b1 b2 b3)) (hlen : payload.length = countOf b1 b2 b3)
    (hs : s.cmdIn = b0 :: b1 :: b2 :: b3 :: (payload ++ rest)) :
    step s = .next { s with cmdIn := rest, respOut := s.respOut ++ [0x01, 0x00, 0x00, 0x00] } := by
  obtain ⟨why, hdecode⟩ := decode_of_illegalWord (rest := rest) hlen hill
  exact step_of_illegal (hs ▸ hdecode)

/-- R145: any other whole command is consumed and run as a well-formed one with its opcode and payload. -/
theorem step_of_not_illegalWord {s : State} {b0 b1 b2 b3 : Byte} {payload rest : List Byte}
    (hleg : ¬ IllegalWord b0.toNat (countOf b1 b2 b3)) (hlen : payload.length = countOf b1 b2 b3)
    (hs : s.cmdIn = b0 :: b1 :: b2 :: b3 :: (payload ++ rest)) :
    ∃ i : Instr, i.wf = true ∧ i.opcode = b0.toNat ∧ i.payload = payload ∧ step s = exec i (consume rest s) := by
  obtain ⟨i, hwf, hopc, hpayload, hdecode⟩ := decode_of_not_illegalWord (rest := rest) hlen hleg
  exact ⟨i, hwf, hopc, hpayload, step_of_command (hs ▸ hdecode)⟩

/-- R145, R162: the two commands that need an open computation are refused in a finalized one. -/
theorem exec_of_misused {i : Instr} {s : State} (hi : i.opcode = 2 ∨ i.opcode = 3) (hs : s.phase = .finalized) :
    exec i s = raise .lifecycle s := by
  have hok : ¬ lifecycleOk s = true := by simp [lifecycleOk_iff, hs]
  cases i with
  | update data => exact if_neg hok
  | finalize => exact if_neg hok
  | reset | tohex dg | hash data => simp [Instr.opcode] at hi

/-- R60, R150: the hex string of a digest as a response. -/
theorem respond_toHex {dg : List Byte} (h : dg.length = Config.digestBytes) (s : State) :
    respond .ok (toHex dg) s =
      { s with respOut := s.respOut ++ [0x00, 0x28, 0x00, 0x00] ++ toHex dg } := by
  rw [respond, responseBytes, toHex_length_of_digest h, ← List.append_assoc]
  rfl

end Sys2Proof.Machine

namespace Sys2Proof.Reference

open Sys2Proof.Machine

/-- R24, R181: the initial lifecycle state holds a new hasher, in an open computation. -/
theorem initialise_eq_holding (s : State) :
    initialise s = holding Hasher.new { s with phase := .active } := rfl

/-- R130, R149: finishing finalizes the hasher held. -/
theorem finish_holding {c : Hasher} {s : State} (hr : c.buf.length = c.len.toNat % 64) (ha : s.phase = .active) :
    finish (holding c s) = .ok (setFinalized (holding (c.finalize lenScale) s)) := by
  rw [finish, pad_holding hr ha]
  rfl

end Sys2Proof.Reference

namespace Sys2Proof.Proofs

open Sys2Proof.Machine Sys2Proof.Reference

/-- Settles O17: an illegal word is refused; any other whole command runs as the one of its opcode and payload, which
the lifecycle check refuses when misused. -/
theorem dispatchFollowsItsOrder : Obligations.DispatchFollowsItsOrder := by
  intro s b0 b1 b2 b3 payload rest hlen hs illegal misused
  refine ⟨fun hill => step_of_illegalWord hill hlen hs, fun hleg ⟨hneedsOpen, hfin⟩ => ?_,
    fun hleg _ => step_of_not_illegalWord hleg hlen hs⟩
  obtain ⟨i, -, hopc, -, hstep⟩ := step_of_not_illegalWord hleg hlen hs
  rw [hstep]
  exact exec_of_misused (s := consume rest s) (hopc ▸ hneedsOpen) hfin

/-- Settles O44: 20 bytes are a digest operand; the word of any other count is illegal. -/
theorem tohexAnswersTheHexString : Obligations.TohexAnswersTheHexString := by
  intro s
  refine ⟨fun dg hdg => ⟨?_, ?_⟩, fun b1 b2 b3 payload rest hlen hne hs => ?_⟩
  · have hword : commandWord (.tohex dg) = 0x00001404 := by
      rw [commandWord, Instr.payload, hdg]
      rfl
    rw [encode, hword]
    rfl
  · rw [← respond_toHex hdg]
    exact execTohex_of_length hdg s
  · exact step_of_illegalWord (.inr (.inr (.inr (.inr ⟨rfl, hlen ▸ hne⟩)))) hlen hs

/-- Settles O45: the initial lifecycle state holds a new hasher, which the two stages update and finalize. -/
theorem hashIsFreshUpdateFinalizeHex : Obligations.HashIsFreshUpdateFinalizeHex := by
  intro s data
  have hr : Hasher.new.buf.length = Hasher.new.len.toNat % 64 := rfl
  have hwork : update data (initialise s) >>= finish =
      .ok (setFinalized (holding ((Hasher.new.update data).finalize lenScale) { s with phase := .active })) := by
    rw [initialise_eq_holding, update_holding data hr rfl]
    exact finish_holding (Hasher.update_residue hr data) rfl
  rw [exec, execHash, hwork, Except.map, outcome_ok, respond_toHex (serialize_length _)]
  rfl

/-- Settles O28: `RESET` is one response on the initial lifecycle state; a payload makes its word illegal. -/
theorem resetRestoresInitialState : Obligations.ResetRestoresInitialState := by
  refine ⟨by decide, fun s => ⟨rfl, fun b1 b2 b3 payload rest hlen hne hs => ?_⟩⟩
  have hcount : countOf b1 b2 b3 ≠ 0 := hlen ▸ List.length_eq_zero_iff.not.2 hne
  exact step_of_illegalWord (.inr (.inr (.inl ⟨rfl, hcount⟩))) hlen hs

end Sys2Proof.Proofs
end

section
/-! PROOFS. The family 60_exceptions.md: the two exceptions as the dispatch of a whole command takes them, and the
response of every accepted command. -/

namespace Sys2Proof.Machine

/-- R162, R164: the next state after the lifecycle exception, with its response written out. -/
theorem raise_lifecycle (s : State) :
    raise .lifecycle s = .next { s with respOut := s.respOut ++ [0x02, 0x00, 0x00, 0x00] } := by
  rw [raise_eq]
  rfl

/-- R60: a response at the end of the stream, its word apart from a payload of known length. -/
theorem respond_respOut_of_length {p : List Byte} {n : Nat} (h : p.length = n) (st : Status) (s : State) :
    (respond st p s).respOut = s.respOut ++ wordBytes (responseWord st n) ++ p := by
  rw [respond_respOut, responseBytes, h, List.append_assoc]

end Sys2Proof.Machine

namespace Sys2Proof.Proofs

open Sys2Proof.Machine

/-- Settles O19: the whole illegal command is consumed and answered by its exception. -/
theorem illegalCommandIsRefusedInPlace : Obligations.IllegalCommandIsRefusedInPlace :=
  fun _ _ _ _ _ _ _ hill hlen hs => step_of_illegalWord hill hlen hs

/-- Settles O20: an illegal word with one of the two opcodes breaks `FINALIZE`'s `N = 0`. The word `FINALIZE` with a
payload is illegal; without one it is legal, and misused after a finalize. -/
theorem formatCheckBeforeLifecycle : Obligations.FormatCheckBeforeLifecycle := by
  refine ⟨fun w hnone hopc => ?_, fun s b1 b2 b3 payload rest hfin hlen hs => ?_⟩
  · have hill := (decodeWord_eq_none_iff w).1 hnone
    rw [IllegalWord] at hill
    omega
  · obtain ⟨hillegal, hmisused, -⟩ := dispatchFollowsItsOrder s 0x03 b1 b2 b3 payload rest hlen hs
    by_cases hp : payload = []
    · have hcount : countOf b1 b2 b3 = 0 := by rw [← hlen, hp, List.length_nil]
      have hlegal : ¬ IllegalWord (0x03 : Byte).toNat (countOf b1 b2 b3) := by
        rw [hcount]
        simp [IllegalWord]
      rw [if_pos hp]
      exact hmisused hlegal ⟨.inr rfl, hfin⟩
    · have hcount : countOf b1 b2 b3 ≠ 0 := hlen ▸ List.length_eq_zero_iff.not.2 hp
      rw [if_neg hp]
      exact hillegal (.inr (.inr (.inr (.inl ⟨rfl, hcount⟩))))

/-- Settles O21: both commands need an open computation. -/
theorem lifecycleMisuseIsRefused : Obligations.LifecycleMisuseIsRefused := by
  intro s data hfin
  rw [← raise_lifecycle]
  exact ⟨exec_of_misused (.inl rfl) hfin, exec_of_misused (.inr rfl) hfin⟩

/-- Settles O23, command by command: under the invariant the command answers a next state, and its inversion lemma
says which response that is; the work before it leaves the response stream alone. -/
theorem acceptanceByPhase : Obligations.AcceptanceByPhase := by
  intro s i hs hwf
  obtain ⟨t, ht⟩ := exec_next i hs
  cases i with
  | reset =>
    cases ht
    exact ⟨_, [], rfl, rfl⟩
  | update data =>
    refine ⟨t, [], ht, ?_⟩
    obtain ⟨hact, u, hu, rfl⟩ | ⟨hfin, rfl⟩ := execUpdate_cases ht
    · rw [hact, respond_respOut, (update_frame hu).2.2]
      rfl
    · rw [hfin]
      rfl
  | finalize =>
    obtain ⟨hact, u, hu, rfl⟩ | ⟨hfin, rfl⟩ := execFinalize_cases ht
    · refine ⟨_, serialize u.h, ht, ?_⟩
      rw [hact, respond_respOut_of_length (serialize_length u.h), (finish_frame hu).2.2]
      exact ⟨rfl, serialize_length u.h⟩
    · refine ⟨_, [], ht, ?_⟩
      rw [hfin]
      rfl
  | tohex dg =>
    have hlen : dg.length = Config.digestBytes := of_decide_eq_true hwf
    have hhex : (toHex dg).length = Config.hexChars := toHex_length_of_digest hlen
    exact ⟨_, toHex dg, execTohex_of_length hlen s, respond_respOut_of_length hhex .ok s, hhex⟩
  | hash data =>
    obtain ⟨u, v, hu, hv, rfl⟩ := execHash_cases ht
    have hhex : (toHex (serialize v.h)).length = Config.hexChars := toHex_length_of_digest (serialize_length v.h)
    have hout : v.respOut = s.respOut := (finish_frame hv).2.2.trans (update_frame hu).2.2
    exact ⟨_, _, ht, hout ▸ respond_respOut_of_length hhex .ok v, hhex⟩

end Sys2Proof.Proofs
end

section
/-! PROOFS. The codec, the tables and the step loop: packing and unpacking undo each other, so the digest bytes
determine the State words; the spec's checks of the tables; a left step commutes with a right step. -/

namespace Sys2Proof.Machine

/-- R70, R71: packing the four bytes of a word gives the word back. -/
theorem loadWordLe_storeByte (w : Word) :
    loadWordLe (storeByte w 0) (storeByte w 1) (storeByte w 2) (storeByte w 3) = w := by
  apply BitVec.eq_of_toNat_eq
  have hw := w.isLt
  simp only [loadWordLe_toNat, storeByte_toNat, Fin.val_zero, Fin.val_one, Fin.val_two,
    show (3 : Fin 4).val = 3 from rfl]
  omega

/-- R70, R71: the bytes of a packed word are the four that were packed. -/
theorem wordBytes_loadWordLe (b0 b1 b2 b3 : Byte) : wordBytes (loadWordLe b0 b1 b2 b3) = [b0, b1, b2, b3] := by
  have h0 := b0.isLt
  have h1 := b1.isLt
  have h2 := b2.isLt
  have h3 := b3.isLt
  simp only [wordBytes, List.cons.injEq, ← BitVec.toNat_inj, storeByte_toNat, loadWordLe_toNat, Fin.val_zero,
    Fin.val_one, Fin.val_two, show (3 : Fin 4).val = 3 from rfl, and_true]
  omega

/-- R71: a word is determined by its four bytes. -/
theorem word_eq_of_storeByte {w v : Word} (h : ∀ k : Fin 4, storeByte w k = storeByte v k) : w = v := by
  rw [← loadWordLe_storeByte w, h 0, h 1, h 2, h 3, loadWordLe_storeByte]

/-- A five-word tuple is determined by its words. -/
theorem five_eq_of_get {h k : Five} (heq : ∀ i : Fin 5, h.get i = k.get i) : h = k := by
  obtain ⟨h0, h1, h2, h3, h4⟩ := h
  obtain ⟨k0, k1, k2, k3, k4⟩ := k
  exact Five.mk.injEq .. ▸ ⟨heq 0, heq 1, heq 2, heq 3, heq 4⟩

/-- R133: byte `k` of State word `i` is digest byte `4 i + k`. -/
theorem serialize_getElem?_word (h : Five) (i : Fin 5) (k : Fin 4) :
    (serialize h)[4 * i.val + k.val]? = some (storeByte (h.get i) k) := by
  have hdiv : (4 * i.val + k.val) / 4 = i.val := by omega
  have hmod : (4 * i.val + k.val) % 4 = k.val := by omega
  simpa only [hdiv, hmod] using serialize_getElem? h ⟨4 * i.val + k.val, by omega⟩

theorem serialize_injective : Function.Injective serialize := by
  intro h k heq
  refine five_eq_of_get fun i => word_eq_of_storeByte fun b => Option.some_injective _ ?_
  rw [← serialize_getElem?_word, heq, serialize_getElem?_word]

/-- R104: the two lines share no register, so any number of left steps commutes with a right step. -/
theorem foldl_stepL_stepR (js : List (Fin 80)) (j : Fin 80) (d : Datapath) :
    js.foldl (fun d j => stepL j d) (stepR j d) = stepR j (js.foldl (fun d j => stepL j d) d) :=
  List.foldl_hom (stepR j) (fun _ _ => rfl)

/-- R104: over any step indices, the right line may wait until the left line has run. -/
theorem foldl_both_lines (js : List (Fin 80)) (d : Datapath) :
    js.foldl (fun d j => stepR j (stepL j d)) d =
      js.foldl (fun d j => stepR j d) (js.foldl (fun d j => stepL j d) d) := by
  induction js generalizing d with
  | nil => rfl
  | cons j js ih =>
    rw [List.foldl_cons, ih, foldl_stepL_stepR]
    rfl

end Sys2Proof.Machine

namespace Sys2Proof.Proofs

open Sys2Proof.Machine

/-- Settles O2: both directions, as numbers in base 256. -/
theorem packUnpackRoundTrip : Obligations.PackUnpackRoundTrip :=
  ⟨loadWordLe_storeByte, wordBytes_loadWordLe⟩

/-- Settles O40: each State word is read off its four digest bytes. -/
theorem digestDeterminesStateWords : Obligations.DigestDeterminesStateWords :=
  fun _ _ heq => serialize_injective heq

/-- Settles O5, check by check: each is a finite fact about the tables as written. -/
theorem tablesMeetTheirChecks : Obligations.TablesMeetTheirChecks := by
  unfold Obligations.TablesMeetTheirChecks
  intro rho
  refine ⟨?lengths, ?indexRange, ?amountRange, ?leftByRho, ?rightByRho, ?permutations, ?amountCounts,
    ?quintileSums, by decide, by decide, ?roots, rfl, rfl⟩
  case indexRange | amountRange => exact List.forall_mem_append.2 ⟨by decide, by decide⟩
  case lengths | leftByRho | rightByRho | permutations | amountCounts | quintileSums | roots => decide

/-- Settles O8: the step loop is one list of step indices. -/
theorem linesMayRunOneAfterTheOther : Obligations.LinesMayRunOneAfterTheOther :=
  fun d => foldl_both_lines (List.finRange 80) d

end Sys2Proof.Proofs
end

section
/-! PROOFS. The encoding: what a whole command on the stream decodes to, by its opcode and its payload, so that the
decoder and the encoder are inverse; the opcode map by fields; bytes that arrive later. -/

namespace Sys2Proof

open Sys2Proof.Machine

/-- R57: an operation is determined by its opcode. -/
theorem Op.eq_of_opcode {op op' : Op} (h : (op.withPayload []).opcode = (op'.withPayload []).opcode) :
    op = op' := by
  revert h
  cases op <;> cases op' <;> decide

/-- R57, R59: an opcode of the map with a count that its operation allows is not illegal. -/
theorem Op.not_illegalWord {op : Op} {n : Nat} (h : op.AllowsCount n) :
    ¬ IllegalWord (op.withPayload []).opcode n := by
  rw [IllegalWord]
  cases op with
  | update | hash => simp [Op.withPayload, Instr.opcode]
  | reset | finalize | tohex => simpa [Op.withPayload, Instr.opcode, Op.AllowsCount] using h

/-- R57, R58: a well-formed command is an operation with a payload of a length that the operation allows. -/
theorem Instr.exists_op {i : Instr} (h : i.wf = true) :
    ∃ op : Op, i = op.withPayload i.payload ∧ op.AllowsCount i.payload.length := by
  cases i with
  | reset => exact ⟨.reset, rfl, rfl⟩
  | update data => exact ⟨.update, rfl, trivial⟩
  | finalize => exact ⟨.finalize, rfl, rfl⟩
  | tohex dg =>
    have hlen : dg.length = 20 := of_decide_eq_true h
    exact ⟨.tohex, rfl, hlen⟩
  | hash data => exact ⟨.hash, rfl, trivial⟩

/-- R57: the word of a well-formed command is not illegal. -/
theorem Instr.not_illegalWord {i : Instr} (h : i.wf = true) : ¬ IllegalWord i.opcode i.payload.length := by
  obtain ⟨op, hi, hcount⟩ := Instr.exists_op h
  rw [hi, Op.withPayload_opcode op _ [], ← hi]
  exact Op.not_illegalWord hcount

/-- R57, R58: a well-formed command is determined by its opcode and its payload. -/
theorem Instr.eq_of_opcode_of_payload {i j : Instr} (hi : i.wf = true) (hj : j.wf = true)
    (hopc : i.opcode = j.opcode) (hpayload : i.payload = j.payload) : i = j := by
  obtain ⟨op, hop, -⟩ := Instr.exists_op hi
  obtain ⟨op', hop', -⟩ := Instr.exists_op hj
  rw [hop, hop', op.withPayload_opcode _ [], op'.withPayload_opcode _ []] at hopc
  rw [hop, hop', Op.eq_of_opcode hopc, hpayload]

theorem Instr.opcode_lt (i : Instr) : i.opcode < 2 ^ 8 := by
  cases i <;> simp [Instr.opcode]

/-- R56: the two fields of a well-formed command's word. -/
theorem commandWord_fields {i : Instr} (h : i.wf = true) :
    (wordOpc (commandWord i)).toNat = i.opcode ∧ wordCount (commandWord i) = i.payload.length := by
  have hopc := i.opcode_lt
  rw [wordOpc, wordCount, BitVec.toNat_ofNat, commandWord_toNat h]
  omega

/-- R56: a word is the command's when its fields are the command's opcode and payload length. -/
theorem eq_commandWord_of_fields {i : Instr} (h : i.wf = true) {w : Word} (hopc : (wordOpc w).toNat = i.opcode)
    (hcount : wordCount w = i.payload.length) : w = commandWord i := by
  obtain ⟨hopc', hcount'⟩ := commandWord_fields h
  exact (word_eq_iff_fields ..).2 ⟨hopc.trans hopc'.symm, hcount.trans hcount'.symm⟩

/-- R55, R56: four bytes and a payload are a well-formed command's encoding when they spell its opcode, the
payload's length and the payload. -/
theorem encode_eq {i : Instr} (h : i.wf = true) {b0 b1 b2 b3 : Byte} (hopc : b0.toNat = i.opcode)
    (hcount : countOf b1 b2 b3 = i.payload.length) : encode i = b0 :: b1 :: b2 :: b3 :: i.payload := by
  have hword : loadWordLe b0 b1 b2 b3 = commandWord i :=
    eq_commandWord_of_fields h (by rw [wordOpc_loadWordLe, hopc]) (by rw [wordCount_loadWordLe, hcount])
  rw [encode, ← hword, wordBytes_loadWordLe]
  rfl

/-- R55, R56: every well-formed command's encoding is so spelled. -/
theorem exists_encode_eq {i : Instr} (h : i.wf = true) :
    ∃ b0 b1 b2 b3 : Byte, b0.toNat = i.opcode ∧ countOf b1 b2 b3 = i.payload.length ∧
      encode i = b0 :: b1 :: b2 :: b3 :: i.payload := by
  obtain ⟨hopc, hcount⟩ := commandWord_fields h
  rw [← loadWordLe_storeByte (commandWord i)] at hopc hcount
  rw [wordOpc_loadWordLe] at hopc
  rw [wordCount_loadWordLe] at hcount
  exact ⟨_, _, _, _, hopc, hcount, rfl⟩

/-- R55 to R58: the decoder reads a well-formed command back from its encoding. -/
theorem decode_encode_append {i : Instr} (h : i.wf = true) (rest : List Byte) :
    decode (encode i ++ rest) = .command i rest := by
  obtain ⟨b0, b1, b2, b3, hopc, hcount, hencode⟩ := exists_encode_eq h
  have hlegal : ¬ IllegalWord b0.toNat (countOf b1 b2 b3) := by
    rw [hopc, hcount]
    exact Instr.not_illegalWord h
  obtain ⟨j, hj, hopcode, hpayload, hdecode⟩ := decode_of_not_illegalWord (rest := rest) hcount.symm hlegal
  rw [hencode, ← Instr.eq_of_opcode_of_payload hj h (hopcode.trans hopc) hpayload]
  rwa [← hpayload] at hdecode

/-- R55 to R58: bytes that decode to a command are its encoding and the rest. -/
theorem eq_encode_append_of_decode {bytes rest : List Byte} {i : Instr} (h : decode bytes = .command i rest) :
    bytes = encode i ++ rest := by
  obtain ⟨b0, b1, b2, b3, t, -, rfl, hlen, -, -, hrest⟩ := decode_eq_command h
  have htake : (t.take (countOf b1 b2 b3)).length = countOf b1 b2 b3 := List.length_take_of_le hlen
  rw [← List.take_append_drop (countOf b1 b2 b3) t, ← hrest] at h ⊢
  have hlegal : ¬ IllegalWord b0.toNat (countOf b1 b2 b3) := by
    intro hill
    obtain ⟨why, hillegal⟩ := decode_of_illegalWord (rest := rest) htake hill
    cases h.symm.trans hillegal
  obtain ⟨j, hwf, hopc, hpayload, hdecode⟩ := decode_of_not_illegalWord (rest := rest) htake hlegal
  cases h.symm.trans hdecode
  rw [encode_eq hwf hopc.symm (by rw [hpayload, htake]), hpayload]
  rfl

/-- R57: the words of an operation, by their fields. -/
theorem decodeWord_eq_some_iff (w : Word) (op : Op) :
    decodeWord w = some op ↔ (wordOpc w).toNat = (op.withPayload []).opcode ∧ op.AllowsCount (wordCount w) := by
  have fields_of_decode {op : Op} (h : decodeWord w = some op) :
      (wordOpc w).toNat = (op.withPayload []).opcode ∧ op.AllowsCount (wordCount w) := by
    obtain ⟨r, hr, hcovers, rfl⟩ := exists_row_of_decodeWord h
    exact (covers_iff_fields hr w).1 hcovers
  refine ⟨fields_of_decode, fun ⟨hopc, hcount⟩ => ?_⟩
  cases h : decodeWord w with
  | none =>
    exact absurd ((decodeWord_eq_none_iff w).1 h) (hopc ▸ Op.not_illegalWord hcount)
  | some op' => rw [Op.eq_of_opcode ((fields_of_decode h).1.symm.trans hopc)]

/-- What is decoded, with more bytes behind it; `incomplete` has no bytes behind it. -/
def Decoded.append (more : List Byte) : Decoded → Decoded
  | .command i rest => .command i (rest ++ more)
  | .illegal why rest => .illegal why (rest ++ more)
  | .incomplete => .incomplete

/-- R55: the framing of a whole command, legal or illegal, does not look beyond it. -/
theorem decode_append {bytes : List Byte} (h : decode bytes ≠ .incomplete) (more : List Byte) :
    decode (bytes ++ more) = (decode bytes).append more := by
  match bytes with
  | b0 :: b1 :: b2 :: b3 :: t =>
    have hlen : countOf b1 b2 b3 ≤ t.length := by
      by_contra hlt
      exact h (by rw [decode_cons, if_pos (Nat.lt_of_not_le hlt)])
    have hlen' : countOf b1 b2 b3 ≤ (t ++ more).length := by
      rw [List.length_append]
      omega
    simp only [List.cons_append, decode_cons, if_neg (Nat.not_lt.2 hlen), if_neg (Nat.not_lt.2 hlen'),
      List.take_append_of_le_length hlen, List.drop_append_of_le_length hlen]
    cases decodeWord (loadWordLe b0 b1 b2 b3) <;> rfl
  | [] | [_] | [_, _] | [_, _, _] => exact absurd rfl h

end Sys2Proof

namespace Sys2Proof.Proofs

open Sys2Proof.Machine

/-- Settles O11: the encoding spells the opcode and the payload, which determine the command decoded. -/
theorem decodeOfEncode : Obligations.DecodeOfEncode :=
  fun _ rest hwf => decode_encode_append hwf rest

/-- Settles O12: what is decoded has the opcode and the payload that the bytes spell. -/
theorem decodedBytesAreTheEncoding : Obligations.DecodedBytesAreTheEncoding :=
  fun _ _ _ h => ⟨decode_command_wf h, eq_encode_append_of_decode h⟩

/-- Settles O13: the operation of a word by its fields, at each of the five. -/
theorem opcodeMapByFields : Obligations.OpcodeMapByFields :=
  fun w => ⟨decodeWord_eq_none_iff w, decodeWord_eq_some_iff w .reset,
    (decodeWord_eq_some_iff w .update).trans (and_iff_left trivial), decodeWord_eq_some_iff w .finalize,
    decodeWord_eq_some_iff w .tohex, (decodeWord_eq_some_iff w .hash).trans (and_iff_left trivial)⟩

/-- Settles O14: the decoder computes on each of the written-out streams. -/
theorem writtenOutWordsDecode : Obligations.WrittenOutWordsDecode := by
  unfold Obligations.WrittenOutWordsDecode
  decide

/-- Settles O15: the framing of a whole command does not look beyond it. -/
theorem laterBytesKeepFraming : Obligations.LaterBytesKeepFraming := by
  refine fun bytes more => ⟨fun i rest h => ?_, fun why rest h => ?_⟩
  · rw [decode_append (by simp [h]), h]
    rfl
  · rw [decode_append (by simp [h]), h]
    rfl

end Sys2Proof.Proofs
end

section
/-! PROOFS. Commands and the streams: what a command does and what it appends, whatever the streams hold, so that
commands on the stream run in order; waiting; commands that forget the earlier computation. -/

namespace Sys2Proof.Machine

theorem finish_withStreams (s : State) (inB outB : List Byte) :
    finish { s with cmdIn := inB, respOut := outB } =
      (finish s).map fun t => { t with cmdIn := inB, respOut := outB } := by
  rw [finish, finish, pad_withStreams]
  cases pad s <;> rfl

theorem update_finish_withStreams (data : List Byte) (s : State) (inB outB : List Byte) :
    update data { s with cmdIn := inB, respOut := outB } >>= finish =
      (update data s >>= finish).map fun t => { t with cmdIn := inB, respOut := outB } := by
  rw [update_withStreams]
  cases update data s with
  | error f => rfl
  | ok u => exact finish_withStreams u inB outB

/-- R35, R153: what a command does to the engine, and what it appends to the responses, is the same whatever the
two streams hold. -/
def IgnoresStreams (i : Instr) (s : State) : Prop :=
  ∃ work : Except Fault (State × List Byte), ∀ inB outB : List Byte,
    exec i { s with cmdIn := inB, respOut := outB } =
      outcome (work.map fun r => { r.1 with cmdIn := inB, respOut := outB ++ r.2 })

section

variable {i : Instr} {s : State}

/-- A command that only responds. -/
theorem ignoresStreams_of_respond {st : Status} {payload : List Byte} {u : State}
    (h : ∀ inB outB, exec i { s with cmdIn := inB, respOut := outB } =
      .next (respond st payload { u with cmdIn := inB, respOut := outB })) : IgnoresStreams i s :=
  ⟨.ok (u, responseBytes st payload), h⟩

/-- A command whose work keeps to the engine, and whose response shows State words at most. -/
theorem ignoresStreams_of_work {work : Except Fault State} (payload : Five → List Byte)
    (h : ∀ inB outB, exec i { s with cmdIn := inB, respOut := outB } =
      outcome ((work.map fun t => { t with cmdIn := inB, respOut := outB }).map
        fun t => respond .ok (payload t.h) t)) : IgnoresStreams i s := by
  refine ⟨work.map fun t => (t, responseBytes .ok (payload t.h)), fun inB outB => (h inB outB).trans ?_⟩
  cases work <;> rfl

end

theorem exec_ignoresStreams (i : Instr) (s : State) : IgnoresStreams i s := by
  cases i with
  | reset => exact ignoresStreams_of_respond (u := initialise s) fun _ _ => rfl
  | update data =>
    by_cases hok : lifecycleOk s = true
    · refine ignoresStreams_of_work (work := update data s) (fun _ => []) fun inB outB => ?_
      rw [← update_withStreams]
      exact if_pos hok
    · exact ignoresStreams_of_respond fun _ _ => if_neg hok
  | finalize =>
    by_cases hok : lifecycleOk s = true
    · refine ignoresStreams_of_work (work := finish s) serialize fun inB outB => ?_
      rw [← finish_withStreams]
      exact if_pos hok
    · exact ignoresStreams_of_respond fun _ _ => if_neg hok
  | tohex dg =>
    cases hdg : digestOperand dg with
    | some digest => exact ignoresStreams_of_respond (u := s) fun _ _ => by rw [exec, execTohex, hdg]
    | none => exact ignoresStreams_of_respond (u := s) fun _ _ => by rw [exec, execTohex, hdg]; rfl
  | hash data =>
    refine ignoresStreams_of_work (work := update data (initialise s) >>= finish)
      (fun h => toHex (serialize h)) fun inB outB => ?_
    rw [← update_finish_withStreams]
    rfl

/-- R55: a command leaves the command stream as it is. -/
theorem exec_cmdIn {i : Instr} {s t : State} (h : exec i s = .next t) : t.cmdIn = s.cmdIn := by
  obtain ⟨work, hwork⟩ := exec_ignoresStreams i s
  obtain ⟨r, -, rfl⟩ := except_map_eq_ok (outcome_eq_next.1 ((hwork s.cmdIn s.respOut).symm.trans h))
  rfl

/-- R55, R173: with no whole command on the stream the step waits. -/
theorem step_of_incomplete {s : State} (h : decode s.cmdIn = .incomplete) : step s = .next s := by
  simp only [step, h]

/-- R145, R35 (b): a well-formed command at the head of the stream is consumed and run. -/
theorem step_of_encode {i : Instr} (hwf : i.wf = true) {s : State} {rest : List Byte}
    (hs : s.cmdIn = encode i ++ rest) : step s = exec i (consume rest s) :=
  step_of_command (hs ▸ decode_encode_append hwf rest)

/-- R181: all that is left of a state in the initial lifecycle state is its streams. -/
theorem initialise_eq_of_streams {s t : State} (hin : s.cmdIn = t.cmdIn) (hout : s.respOut = t.respOut) :
    initialise s = initialise t := by
  simp only [initialise, hin, hout]

theorem decode_of_length_lt {bytes : List Byte} (h : bytes.length < 4) : decode bytes = .incomplete := by
  match bytes with
  | [] | [_] | [_, _] | [_, _, _] => rfl
  | b0 :: b1 :: b2 :: b3 :: t =>
    simp only [List.length_cons] at h
    omega

/-- R35 (b): a command on the stream runs as it would with only what follows it there, and so do its
successors. -/
theorem run_commandStream (is : List Instr) (s : State) (rest : List Byte) (hwf : ∀ i ∈ is, i.wf = true) :
    Host.Core.run core is.length { s with cmdIn := commandStream is ++ rest } =
      execAll is { s with cmdIn := rest } := by
  induction is generalizing s with
  | nil => rfl
  | cons i is ih =>
    obtain ⟨hi, his⟩ := List.forall_mem_cons.1 hwf
    obtain ⟨work, hwork⟩ := exec_ignoresStreams i s
    have hstep : step { s with cmdIn := commandStream (i :: is) ++ rest } =
        exec i { s with cmdIn := commandStream is ++ rest } :=
      step_of_encode hi (List.append_assoc (encode i) (commandStream is) rest)
    rw [List.length_cons, run_succ, hstep, execAll, hwork _ s.respOut, hwork rest s.respOut]
    cases work with
    | error f => rfl
    | ok r => exact ih { r.1 with respOut := s.respOut ++ r.2 } his

end Sys2Proof.Machine

namespace Sys2Proof.Proofs

open Sys2Proof.Machine

/-- Settles O16: the step at a whole legal command. -/
theorem stepRunsDecodedCommand : Obligations.StepRunsDecodedCommand :=
  fun _ _ _ h => step_of_command h

/-- Settles O18: in both cases the decoder finds no whole command. -/
theorem incompleteCommandWaits : Obligations.IncompleteCommandWaits := by
  rintro s (hshort | ⟨b0, b1, b2, b3, t, hs, hlen⟩)
  · exact step_of_incomplete (decode_of_length_lt hshort)
  · exact step_of_incomplete (by rw [hs, decode_cons, if_pos hlen])

/-- Settles O52: the command's work and response bytes are the same on both pairs of streams. -/
theorem commandsIgnoreTheStreams : Obligations.CommandsIgnoreTheStreams := by
  intro i s t inB outB h
  obtain ⟨work, hwork⟩ := exec_ignoresStreams i s
  obtain ⟨⟨u, resp⟩, rfl, rfl⟩ := except_map_eq_ok (outcome_eq_next.1 ((hwork s.cmdIn s.respOut).symm.trans h))
  exact ⟨resp, rfl, rfl, hwork inB outB⟩

/-- Settles O25, by induction over the commands: a command runs alike whatever follows it on the stream. -/
theorem commandsRunInStreamOrder : Obligations.CommandsRunInStreamOrder :=
  fun is s rest hwf => run_commandStream is s rest hwf

/-- Settles O29: both commands go on from the initial lifecycle state. -/
theorem resetAndHashForgetThePast : Obligations.ResetAndHashForgetThePast := by
  intro s t data hin hout
  have hinit := initialise_eq_of_streams hin hout
  refine ⟨?_, ?_⟩
  · rw [exec, exec, execReset, execReset, hinit]
  · rw [exec, exec, execHash, execHash, hinit]

end Sys2Proof.Proofs
end

section
/-! PROOFS. The invariant: it holds after power-on, every command keeps it, and a step from a state under it
answers a next state; what a finalized engine keeps. -/

namespace Sys2Proof.Machine

open Sys2Proof.Reference

/-- The invariant speaks of the engine alone, and a response is no part of it. -/
theorem respond_inv {s : State} (hs : Inv s) (st : Status) (payload : List Byte) : Inv (respond st payload s) :=
  inv_withStreams hs s.cmdIn (s.respOut ++ responseBytes st payload)

theorem consume_inv {s : State} (hs : Inv s) (rest : List Byte) : Inv (consume rest s) :=
  inv_withStreams hs rest s.respOut

/-- R134: a finished computation has an empty buffer, so it meets the invariant as a finalized one. -/
theorem finish_inv {s t : State} (hs : Inv s) (ha : s.phase = .active) (h : finish s = .ok t) : Inv t := by
  have hr := hasherOf_residue hs
  have hfinish := finish_holding hr ha
  rw [holding_hasherOf hs, h, Except.ok.injEq] at hfinish
  have hbuf := Hasher.finalize_buf hr lenScale
  have hpadded := Hasher.update_residue hr (padding lenScale (hasherOf s).len.toNat)
  rw [← Hasher.finalize_eq hr, hbuf] at hpadded
  subst hfinish
  refine ⟨?_, ?_, fun _ => ?_⟩
  · simp [hbuf]
  · simpa [hbuf] using hpadded
  · simp [hbuf]

/-- R122: absorbing bytes in an open computation keeps the invariant. -/
theorem update_inv {data : List Byte} {s t : State} (hs : Inv s) (ha : s.phase = .active)
    (h : update data s = .ok t) : Inv t := by
  obtain ⟨u, hu, hi, -⟩ := update_ok data hs ha
  cases hu.symm.trans h
  exact hi

/-- R22: every command keeps the invariant. -/
theorem exec_inv {i : Instr} {s t : State} (hs : Inv s) (h : exec i s = .next t) : Inv t := by
  cases i with
  | reset =>
    cases h
    exact respond_inv (initialise_inv s) .ok []
  | update data =>
    obtain ⟨hact, u, hu, rfl⟩ | ⟨-, rfl⟩ := execUpdate_cases h
    · exact respond_inv (update_inv hs hact hu) .ok []
    · exact respond_inv hs .lifecycle []
  | finalize =>
    obtain ⟨hact, u, hu, rfl⟩ | ⟨-, rfl⟩ := execFinalize_cases h
    · exact respond_inv (finish_inv hs hact hu) .ok _
    · exact respond_inv hs .lifecycle []
  | tohex dg =>
    obtain ⟨digest, -, rfl⟩ | ⟨-, rfl⟩ := execTohex_cases h
    · exact respond_inv hs .ok _
    · exact respond_inv hs .illegalCommand []
  | hash data =>
    obtain ⟨u, v, hu, hv, rfl⟩ := execHash_cases h
    have hinit := initialise_inv s
    have hact : u.phase = .active := (update_frame hu).1
    exact respond_inv (finish_inv (update_inv hinit rfl hu) hact hv) .ok _

/-- All that a step can be: a command run, an illegal command answered, or a wait. -/
theorem step_cases (s : State) :
    (∃ i rest, decode s.cmdIn = .command i rest ∧ step s = exec i (consume rest s)) ∨
      (∃ why rest, decode s.cmdIn = .illegal why rest ∧
        step s = .next (respond .illegalCommand [] (consume rest s))) ∨
      (decode s.cmdIn = .incomplete ∧ step s = .next s) := by
  cases h : decode s.cmdIn with
  | command i rest => exact .inl ⟨i, rest, rfl, step_of_command h⟩
  | illegal why rest => exact .inr (.inl ⟨why, rest, rfl, step_of_illegal h⟩)
  | incomplete => exact .inr (.inr ⟨rfl, step_of_incomplete h⟩)

theorem step_inv {s t : State} (hs : Inv s) (h : step s = .next t) : Inv t := by
  obtain ⟨i, rest, -, hstep⟩ | ⟨why, rest, -, hstep⟩ | ⟨-, hstep⟩ := step_cases s
  · exact exec_inv (consume_inv hs rest) (hstep.symm.trans h)
  · cases hstep.symm.trans h
    exact respond_inv (consume_inv hs rest) .illegalCommand []
  · cases hstep.symm.trans h
    exact hs

theorem step_next {s : State} (hs : Inv s) : ∃ t, step s = .next t := by
  obtain ⟨i, rest, -, hstep⟩ | ⟨why, rest, -, hstep⟩ | ⟨-, hstep⟩ := step_cases s
  · rw [hstep]
    exact exec_next i (consume_inv hs rest)
  · exact ⟨_, hstep⟩
  · exact ⟨_, hstep⟩

/-- R164 (b), R165: what a command leaves alone in a finalized engine, unless it starts a new computation. -/
theorem exec_finalized_frame {i : Instr} {s t : State} (hfin : s.phase = .finalized) (h : exec i s = .next t)
    (hreset : i ≠ .reset) (hhash : ∀ data, i ≠ .hash data) :
    t.h = s.h ∧ t.mem = s.mem ∧ t.bufLen = s.bufLen ∧ t.len = s.len := by
  have of_respond (st : Status) (payload : List Byte) (ht : t = respond st payload s) :
      t.h = s.h ∧ t.mem = s.mem ∧ t.bufLen = s.bufLen ∧ t.len = s.len := ht ▸ ⟨rfl, rfl, rfl, rfl⟩
  cases i with
  | reset => exact absurd rfl hreset
  | update data =>
    obtain ⟨hact, -⟩ | ⟨-, ht⟩ := execUpdate_cases h
    · cases hfin.symm.trans hact
    · exact of_respond _ _ ht
  | finalize =>
    obtain ⟨hact, -⟩ | ⟨-, ht⟩ := execFinalize_cases h
    · cases hfin.symm.trans hact
    · exact of_respond _ _ ht
  | tohex dg =>
    obtain ⟨digest, -, ht⟩ | ⟨-, ht⟩ := execTohex_cases h
    · exact of_respond _ _ ht
    · exact of_respond _ _ ht
  | hash data => exact absurd rfl (hhash data)

/-- R14, R185: only `RESET` opens a finalized engine. -/
theorem exec_finalized_phase {i : Instr} {s t : State} (hfin : s.phase = .finalized) (h : exec i s = .next t)
    (hreset : i ≠ .reset) : t.phase = .finalized := by
  have hphase := Proofs.phaseWrittenByThreeCommands i s t h
  cases i with
  | reset => exact absurd rfl hreset
  | update _ | tohex _ => exact hphase.trans hfin
  | finalize | hash _ => exact hphase

end Sys2Proof.Machine

namespace Sys2Proof.Proofs

open Sys2Proof.Machine

/-- Settles O47: power-on leaves the initial lifecycle state. -/
theorem invariantAtPowerOn : Obligations.InvariantAtPowerOn := by
  rw [Obligations.InvariantAtPowerOn, ← initialise_powerOn]
  exact initialise_inv State.reset

/-- Settles O48: every command keeps the invariant, which gives the buffer space its canonical form. -/
theorem everyStepKeepsTheInvariant : Obligations.EveryStepKeepsTheInvariant :=
  fun _ _ hs h => ⟨step_inv hs h, (step_inv hs h).mem_wf⟩

/-- Settles O49: under the invariant no command stops. -/
theorem everyStepAnswersANextState : Obligations.EveryStepAnswersANextState :=
  fun _ hs => step_next hs

/-- Settles O51: a command other than the two excepted ones is refused or only responds; an illegal command and a
wait leave the engine alone. -/
theorem finalizedUntilResetOrHash : Obligations.FinalizedUntilResetOrHash := by
  intro s t hfin h
  obtain ⟨i, rest, hdecode, hstep⟩ | ⟨why, rest, -, hstep⟩ | ⟨-, hstep⟩ := step_cases s
  · have hexec := hstep.symm.trans h
    have ne_of_decode {j : Instr} (hj : ∀ rest, decode s.cmdIn ≠ .command j rest) : i ≠ j :=
      fun hij => hj rest (hij ▸ hdecode)
    exact ⟨fun hreset => exec_finalized_phase (s := consume rest s) hfin hexec (ne_of_decode hreset),
      fun hreset hhash => exec_finalized_frame (s := consume rest s) hfin hexec (ne_of_decode hreset)
        fun data => ne_of_decode (hhash data)⟩
  · cases hstep.symm.trans h
    exact ⟨fun _ => hfin, fun _ _ => ⟨rfl, rfl, rfl, rfl⟩⟩
  · cases hstep.symm.trans h
    exact ⟨fun _ => hfin, fun _ _ => ⟨rfl, rfl, rfl, rfl⟩⟩

end Sys2Proof.Proofs
end

section
/-! PROOFS. Streaming, finalizing and hashing: the closed forms of `UPDATE` and `FINALIZE` on the hasher that a state
holds, the exact count below the limit, and the digest of a message. -/

namespace Sys2Proof.Machine

/-- Under the invariant an address reads the valid byte of that number, or nothing. -/
theorem Inv.read_mem {s : State} (hs : Inv s) (a : Nat) : Memory.read s.mem a = (bufferOf s)[a]? := by
  rw [hs.mem_eq, read_cellsOf]

/-- R120, R148: `UPDATE` of nothing in an open computation only responds. -/
theorem exec_update_nil {s : State} (ha : s.phase = .active) : exec (.update []) s = .next (respond .ok [] s) :=
  if_pos ((lifecycleOk_iff s).2 ha)

/-- R125: what `UPDATE` in an open computation does to the count, the phase and the streams. -/
theorem exec_update_frame {data : List Byte} {s t : State} (ha : s.phase = .active)
    (h : exec (.update data) s = .next t) :
    t.len = s.len + BitVec.ofNat 64 data.length ∧ t.phase = s.phase ∧ t.cmdIn = s.cmdIn ∧
      t.respOut = s.respOut ++ responseBytes .ok [] := by
  obtain ⟨-, u, hu, rfl⟩ | ⟨hfin, -⟩ := execUpdate_cases h
  · obtain ⟨hphase, hin, hout⟩ := update_frame hu
    have hlen := update_len hu
    exact ⟨hlen, hphase, hin, congrArg (· ++ _) hout⟩
  · cases ha.symm.trans hfin

/-- R60: each `UPDATE` of a run in an open computation appends one response. -/
theorem execAll_updates_respOut {chunks : List (List Byte)} {s t : State} (ha : s.phase = .active)
    (h : execAll (chunks.map .update) s = .next t) :
    t.respOut = s.respOut ++ (List.replicate chunks.length (responseBytes .ok [])).flatten := by
  induction chunks generalizing s with
  | nil =>
    cases h
    simp
  | cons d chunks ih =>
    rw [List.map_cons, execAll] at h
    split at h
    · next u hu =>
      obtain ⟨-, hphase, -, hout⟩ := exec_update_frame ha hu
      rw [ih (hphase.trans ha) h, hout, List.length_cons, List.replicate_succ, List.flatten_cons,
        List.append_assoc]
    · cases h
    · cases h

end Sys2Proof.Machine

namespace Sys2Proof.Reference

open Sys2Proof.Machine

/-- R51: the length field of the empty message is zero at every scale. -/
theorem padding_of_empty (scale : Nat) : padding scale 0 = padding lenScale 0 := by
  rw [padding, padding, Nat.mul_zero, Nat.mul_zero]

/-- R131: the padding has at least 9 bytes and at most 72. -/
theorem padding_length_bounds (scale n : Nat) : 9 ≤ (padding scale n).length ∧ (padding scale n).length ≤ 72 := by
  rw [padding_length, zeroCount]
  omega

/-- R130, R135: the finalized hasher in closed form. -/
theorem Hasher.finalize_closed {c : Hasher} (hr : c.buf.length = c.len.toNat % 64) (scale : Nat) :
    c.finalize scale =
      ⟨foldBlocks c.h (c.buf ++ padding scale c.len.toNat) ((c.buf ++ padding scale c.len.toNat).length / 64), [],
        c.len + BitVec.ofNat 64 (padding scale c.len.toNat).length⟩ := by
  have hbuf := Hasher.finalize_buf hr scale
  rw [Hasher.finalize_eq hr, Hasher.update_eq] at hbuf ⊢
  rw [Hasher.mk.injEq]
  exact ⟨rfl, hbuf, rfl⟩

theorem Hasher.update_len (c : Hasher) (data : List Byte) :
    (c.update data).len = c.len + BitVec.ofNat 64 data.length := by
  rw [Hasher.update_eq]

/-- R24: a new hasher keeps R22 (b). -/
theorem Hasher.new_residue : Hasher.new.buf.length = Hasher.new.len.toNat % 64 := rfl

/-- R135: a new hasher fed with a message below the documented limit and finalized has its digest. -/
theorem serialize_finalize_new {M : List Byte} (hM : M.length < Config.lenLimit) (scale : Nat) :
    serialize ((Hasher.new.update M).finalize scale).h = digest scale M := by
  have hlen : (Hasher.new.update M).len.toNat = M.length := by
    rw [Hasher.update_len, show Hasher.new.len = 0#64 from rfl, BitVec.zero_add, BitVec.toNat_ofNat]
    exact Nat.mod_eq_of_lt (hM.trans (by decide))
  rw [Hasher.finalize_eq (Hasher.update_residue Hasher.new_residue M), Hasher.update_append, hlen, Hasher.update_eq]
  rfl

/-- R123: a run of `UPDATE`s on a state that holds a hasher, with its responses. -/
theorem execAll_updates_holding_responses (chunks : List (List Byte)) {c : Hasher} {s : State}
    (hr : c.buf.length = c.len.toNat % 64) (ha : s.phase = .active) :
    execAll (chunks.map .update) (holding c s) =
      .next (holding (c.update chunks.flatten) { s with
        respOut := s.respOut ++ (List.replicate chunks.length (responseBytes .ok [])).flatten }) := by
  obtain ⟨out, hrun⟩ := execAll_updates_holding chunks hr ha
  have hout := execAll_updates_respOut (s := holding c s) ha hrun
  rw [holding_respOut, holding_respOut] at hout
  rw [hrun, ← hout]

/-- R135: `RESET`, one `UPDATE` for each chunk and `FINALIZE` leave a new hasher, fed with the chunks' concatenation
and finalized, and one response each. -/
theorem execAll_message (chunks : List (List Byte)) (s : State) {c : Hasher}
    (hc : (Hasher.new.update chunks.flatten).finalize lenScale = c) :
    execAll ([.reset] ++ chunks.map .update ++ [.finalize]) s =
      .next (holding c (setFinalized (respond .ok (serialize c.h) { s with
        respOut := s.respOut ++ (List.replicate (chunks.length + 1) (responseBytes .ok [])).flatten }))) := by
  have hupdates : execAll ([.reset] ++ chunks.map .update) s = .next _ :=
    execAll_updates_holding_responses chunks (s := { respond .ok [] s with phase := .active })
      Hasher.new_residue rfl
  rw [execAll_append, hupdates]
  simp only [execAll]
  rw [exec_finalize_holding (Hasher.update_residue Hasher.new_residue _) rfl, hc, List.replicate_succ,
    List.flatten_cons, ← List.append_assoc]
  rfl

end Sys2Proof.Reference

namespace Sys2Proof.Proofs

open Sys2Proof.Machine Sys2Proof.Reference

/-- Settles O34: with no byte to absorb, `UPDATE` only responds. -/
theorem emptyUpdateChangesNothing : Obligations.EmptyUpdateChangesNothing :=
  fun _ ha => exec_update_nil ha

/-- Settles O33: what each absorbed byte leaves alone, and what it adds to the count. -/
theorem updateFrameAndCount : Obligations.UpdateFrameAndCount :=
  fun _ _ _ ha h => exec_update_frame ha h

/-- Settles O31: the hasher held is updated, in closed form. -/
theorem updateClosedForm : Obligations.UpdateClosedForm := by
  intro s data hs ha S m
  have hlen : S.length = s.bufLen.toNat + data.length := by rw [List.length_append, hs.length_buffer]
  have hexec := exec_update_holding data (hasherOf_residue hs) ha
  have hupdate : (hasherOf s).update data =
      ⟨foldBlocks s.h S m, S.drop (64 * m), s.len + BitVec.ofNat 64 data.length⟩ := by
    rw [Hasher.update_eq, show m = S.length / 64 by rw [hlen]]
    rfl
  rw [holding_hasherOf hs, hupdate] at hexec
  refine ⟨_, hexec, rfl, ?_, bufferOf_holding .., read_cellsOf _, rfl⟩
  rw [holding_bufLen, BitVec.toNat_ofNat, List.length_drop, hlen]
  omega

/-- Settles O32: with no block complete, the closed form keeps the State words, and the buffer is the old one with
the payload behind it. -/
theorem updateStoresAtWritePosition : Obligations.UpdateStoresAtWritePosition := by
  intro s data hs ha hshort
  obtain ⟨t, hexec, hh, -, -, hread, -⟩ := updateClosedForm s data hs ha
  obtain ⟨-, hphase, hin, -⟩ := exec_update_frame ha hexec
  rw [Nat.div_eq_of_lt hshort] at hh hread
  refine ⟨t, hexec, hh, hphase, hin, fun a => ?_⟩
  rw [hread, Nat.mul_zero, List.drop_zero, hs.read_mem, ← hs.length_buffer]
  rcases Nat.lt_or_ge a (bufferOf s).length with ha | ha
  · rw [if_neg (by omega), List.getElem?_append_left ha]
  · rw [List.getElem?_append_right ha]
    split
    · rfl
    · rw [List.getElem?_eq_none (by omega), List.getElem?_eq_none ha]

/-- Settles O38: the hasher held is finalized, in closed form. -/
theorem finalizeClosedForm : Obligations.FinalizeClosedForm := by
  intro s hs ha P h'
  have hr := hasherOf_residue hs
  have hlen : P.length = s.bufLen.toNat + (9 + (119 - s.bufLen.toNat) % 64) := by
    rw [List.length_append, hs.length_buffer, padding_length, zeroCount, ← hs.residue]
  have hlt := s.bufLen.isLt
  refine ⟨by omega, by split <;> omega, ?_⟩
  have hexec := exec_finalize_holding hr ha
  rw [holding_hasherOf hs, Hasher.finalize_closed hr] at hexec
  rw [hexec, ← respond_serialize_respOut]
  rfl

/-- Settles O36: below the limit neither sum reaches the counter's modulus. -/
theorem lengthIsExactBelowTheLimit : Obligations.LengthIsExactBelowTheLimit := by
  intro s data hs ha hlimit
  have hlimit : s.len.toNat + data.length < 2 ^ 61 := hlimit
  obtain ⟨t, ht⟩ := exec_next (.update data) hs
  obtain ⟨hlen, hphase, -, -⟩ := exec_update_frame ha ht
  have hexact : t.len.toNat = s.len.toNat + data.length := by
    rw [hlen, BitVec.toNat_add, BitVec.toNat_ofNat]
    omega
  obtain ⟨-, -, hfinalize⟩ := finalizeClosedForm t (exec_inv hs ht) (hphase.trans ha)
  obtain ⟨u, hu, hulen⟩ : ∃ u, exec .finalize t = .next u ∧
      u.len = t.len + BitVec.ofNat 64 (padding lenScale t.len.toNat).length := ⟨_, hfinalize, rfl⟩
  have hpad := padding_length_bounds lenScale t.len.toNat
  have hpadded : u.len.toNat = t.len.toNat + (padding lenScale t.len.toNat).length := by
    rw [hulen, BitVec.toNat_add, BitVec.toNat_ofNat]
    omega
  exact ⟨t, u, ht, hexact, hu, by omega, by omega, by rw [lenScale]; omega, by omega⟩

/-- Settles O42: the length field is the only part of the padding that depends on the scale. -/
theorem emptyMessageIgnoresLengthScale : Obligations.EmptyMessageIgnoresLengthScale := by
  intro scale
  rw [digest, digest, List.length_nil, padding_of_empty]

/-- Settles O41: the chunks update a new hasher by the message, and its digest is what `FINALIZE` returns. -/
theorem digestOfChunkedMessage : Obligations.DigestOfChunkedMessage := by
  intro s chunks hlimit
  refine ⟨_, execAll_message chunks s rfl, ?_⟩
  rw [holding_respOut, setFinalized_respOut, respond_serialize_respOut, serialize_finalize_new hlimit]
  rfl

/-- Settles O46: both ways finalize the same new hasher, updated by the data. -/
theorem hashEqualsExplicitSequence : Obligations.HashEqualsExplicitSequence := by
  intro s data _
  let c := (Hasher.new.update data).finalize lenScale
  have hrun := execAll_message [data] s (c := c) (by rw [List.flatten_singleton])
  have htohex (t : State) : exec (.tohex (serialize c.h)) t = .next (respond .ok (toHex (serialize c.h)) t) :=
    execTohex_of_length (serialize_length c.h) t
  refine ⟨_, _, _, serialize c.h, _, hrun, htohex _, hashIsFreshUpdateFinalizeHex s data, ?_, ?_, rfl, rfl⟩
  · rw [holding_respOut, setFinalized_respOut, respond_serialize_respOut, List.append_assoc s.respOut [_, _, _, _]]
    rfl
  · rw [respond_toHex (serialize_length _)]

end Sys2Proof.Proofs
end

section
/-! PROOFS. The host's contract: misused commands in a row, and a run that keeps the contract, command by command. -/

namespace Sys2Proof.Machine

/-- R162, R165: commands that need an open computation, one after the other in a finalized engine. -/
theorem execAll_of_misused {is : List Instr} {s : State} (hfin : s.phase = .finalized)
    (hmisused : ∀ i ∈ is, i.opcode = 2 ∨ i.opcode = 3) :
    execAll is s =
      .next { s with respOut := s.respOut ++ (List.replicate is.length [0x02, 0x00, 0x00, 0x00]).flatten } := by
  induction is generalizing s with
  | nil => simp [execAll]
  | cons i is ih =>
    obtain ⟨hi, his⟩ := List.forall_mem_cons.1 hmisused
    have htail := ih (s := { s with respOut := s.respOut ++ [0x02, 0x00, 0x00, 0x00] }) hfin his
    rw [execAll, exec_of_misused hi hfin, raise_lifecycle, List.length_cons, List.replicate_succ,
      List.flatten_cons, ← List.append_assoc]
    exact htail

/-- R145, R160: a legal command raises no exception in an open computation, and `RESET` raises none at all. -/
theorem nextException_eq_none {s : State} {i : Instr} {rest : List Byte} (h : decode s.cmdIn = .command i rest)
    (hi : s.phase = .active ∨ i = .reset) : nextException s = none := by
  have hopen : i ≠ .reset → s.phase ≠ .finalized := by
    intro hne hfin
    rcases hi with hact | hreset
    · cases hact.symm.trans hfin
    · exact hne hreset
  unfold nextException
  rw [h]
  cases i with
  | reset | tohex _ | hash _ => rfl
  | update _ | finalize => exact if_neg (hopen (by simp))

/-- R162, one command of a run that keeps the contract: the run goes on from the command's next state, which is
under the invariant. -/
theorem cleanRun_succ {s : State} {i : Instr} {rest : List Byte} {k : Nat} (hs : Inv s) (hwf : i.wf = true)
    (hstream : s.cmdIn = encode i ++ rest) (hi : s.phase = .active ∨ i = .reset)
    (hrun : ∀ t, Inv t → t.cmdIn = rest → exec i (consume rest s) = .next t → CleanRun k t) :
    CleanRun (k + 1) s := by
  obtain ⟨t, ht⟩ := exec_next i (consume_inv hs rest)
  have hdecode : decode s.cmdIn = .command i rest := hstream ▸ decode_encode_append hwf rest
  exact ⟨nextException_eq_none hdecode hi, t, (step_of_encode hwf hstream).trans ht,
    hrun t (exec_inv (consume_inv hs rest) ht) (exec_cmdIn ht) ht⟩

/-- R162, R183 (b): `RESET` from any state between commands. -/
theorem cleanRun_reset {s : State} (hs : Inv s) (hstream : s.cmdIn = encode .reset) : CleanRun 1 s :=
  cleanRun_succ (rest := []) hs rfl hstream (.inr rfl) fun _ _ _ _ => trivial

/-- R162, R183 (b): the `UPDATE`s of an open computation, its `FINALIZE`, and `RESET`. -/
theorem cleanRun_updates {chunks : List (List Byte)} {s : State} (hs : Inv s) (ha : s.phase = .active)
    (hmax : ∀ c ∈ chunks, c.length ≤ Config.nMax)
    (hstream : s.cmdIn = commandStream (chunks.map .update ++ [.finalize, .reset])) :
    CleanRun (chunks.length + 2) s := by
  induction chunks generalizing s with
  | nil => exact cleanRun_succ hs rfl hstream (.inl ha) fun t ht hin _ => cleanRun_reset ht hin
  | cons c chunks ih =>
    obtain ⟨hc, hchunks⟩ := List.forall_mem_cons.1 hmax
    refine cleanRun_succ (i := .update c) hs (decide_eq_true hc) hstream (.inl ha) fun t ht hin hexec => ?_
    obtain ⟨-, hphase, -, -⟩ := exec_update_frame (by exact ha) hexec
    exact ih ht (hphase.trans ha) hchunks hin

end Sys2Proof.Machine

namespace Sys2Proof.Proofs

open Sys2Proof.Machine

/-- Settles O22: both commands need an open computation. -/
theorem misuseInARowLeavesNoTrace : Obligations.MisuseInARowLeavesNoTrace := by
  intro is s hfin hmisused
  refine execAll_of_misused hfin fun i hi => ?_
  obtain rfl | ⟨data, rfl⟩ := hmisused i hi
  · exact .inr rfl
  · exact .inl rfl

/-- Settles O26: every state of the run is under the invariant, and it is an open computation up to `FINALIZE`. -/
theorem contractKeepingHostMeetsNoFault : Obligations.ContractKeepingHostMeetsNoFault :=
  fun s _ hs ha hmax => cleanRun_updates (Reference.inv_withStreams hs _ s.respOut) ha hmax rfl

end Sys2Proof.Proofs
end
